-- ==== Sys2Proof/Word.lean ====
section
/-! DEFINITION. The words of the block: bytes, CPU addresses, pattern addresses (spec/00_scope.md R6, R11). All values
are unsigned; nothing is sign-extended. -/

namespace Sys2Proof

/-- One datum: `DATA_BITS = 8` (R6). -/
abbrev Byte := BitVec 8

/-- A CPU address: `ADDR_BITS = 16` (R6, R60). Arithmetic on it wraps modulo 0x10000 (R61). -/
abbrev Addr := BitVec 16

/-- An address of the video pattern space, 13 bits (R60, R71). -/
abbrev PatAddr := BitVec 13

end Sys2Proof
end

