-- ==== Sys2Proof/Config.lean ====
section
/-! DEFINITION. What an implementation fixes: the parameters of spec/00_scope.md R7 (plain data, carried by the state and
changed by no step, log 1), and the three collaborators of R8 with their obligations (spec/43_facade_scheduler.md R256 to
R258), which are one opaque constant: whatever is proved holds for every collaborator that meets the obligations (log 2). -/

namespace Sys2Proof

/-- The region `format` of a cartridge (spec/00_scope.md R14). -/
inductive Format where
  | ntsc
  | pal
  deriving DecidableEq, Repr

/-- The mapper variants of `P_VARIANTS` (spec/41_mapper.md R171; spec/00_scope.md R5 leaves every other out). -/
inductive Variant where
  | fixed
  | prgsw
  | chrsw
  deriving DecidableEq, Repr

/-- How many CPU slots, video steps and audio steps one tick holds, for one format (R7, R250). -/
structure TickCounts where
  cpu : Nat
  ppu : Nat
  apu : Nat
  deriving DecidableEq, Repr

/-- The parameters of R7, one field each (`P_CPU_PER_TICK(f)`, `P_PPU_PER_TICK(f)`, `P_APU_PER_TICK(f)` are the
components of the counts of the format `f`; `alloc_ok` is an operand of each `LOAD`). -/
structure Params where
  /-- `P_OPEN_BUS` (D1). -/
  openBus       : Byte
  /-- `P_RESET_FILL` (D3). -/
  resetFill     : Byte
  /-- `P_MAGIC` (D13). -/
  magic         : Vector Byte 4
  /-- `P_REGION_ZERO` (D15). -/
  regionZero    : Format
  /-- `P_DEFAULT_FORMAT` (D5). -/
  defaultFormat : Format
  /-- The three `*_PER_TICK(NTSC)` (D22). -/
  ntscCounts    : TickCounts
  /-- The three `*_PER_TICK(PAL)` (D22). -/
  palCounts     : TickCounts
  /-- `P_COUNTER_BITS` (D23). -/
  counterBits   : Nat
  /-- `P_CHR_RAM_SIZE` (D8). -/
  chrRamSize    : Nat
  /-- `P_PRG_RAM_SIZE` (D8). -/
  prgRamSize    : Nat
  /-- `P_VARIANTS`, a finite map from `mapper_id` (D6). -/
  variants      : List (Byte × Variant)
  /-- `P_MAX_BUS_PER_STEP` (D24). -/
  maxBusPerStep : Nat
  deriving DecidableEq, Repr

/-- `P_CPU_PER_TICK(f)`, `P_PPU_PER_TICK(f)`, `P_APU_PER_TICK(f)` of the format `f`. -/
def Params.counts (p : Params) : Format → TickCounts
  | .ntsc => p.ntscCounts
  | .pal => p.palCounts

/-- The default configuration `CFG0` of R7. -/
def Params.cfg0 : Params where
  openBus := 0x00#8
  resetFill := 0x00#8
  magic := #v[0x4E#8, 0x45#8, 0x53#8, 0x1A#8]
  regionZero := .ntsc
  defaultFormat := .ntsc
  ntscCounts := ⟨1, 3, 2⟩
  palCounts := ⟨5, 16, 10⟩
  counterBits := 64
  chrRamSize := 0x2000
  prgRamSize := 0x2000
  variants := [(0x00#8, .fixed), (0x02#8, .prgsw), (0x03#8, .chrsw)]
  maxBusPerStep := 16

/-- The constraint R7 puts on the counts of one format: positive, and both chips take more steps than the CPU. -/
def TickCounts.wf (t : TickCounts) : Bool :=
  decide (0 < t.cpu) && decide (t.cpu < t.ppu) && decide (t.cpu < t.apu)

/-- The constraints of R7 on the parameters. That `P_CHR_RAM_SIZE` is not 0 is DEDUCED from spec/41_mapper.md R173 and
R176 (log 19). -/
def Params.wf (p : Params) : Bool :=
  p.ntscCounts.wf && p.palCounts.wf && decide (p.ntscCounts ≠ p.palCounts)
    && decide (0 < p.counterBits) && decide (0 < p.chrRamSize)
    && (List.range 14).any (fun k => p.prgRamSize == 2 ^ k)
    && decide ((p.variants.map Prod.fst).Nodup)
    && p.variants.any (fun e => e.2 == .fixed) && p.variants.any (fun e => e.2 != .fixed)
    && decide (0 < p.maxBusPerStep)

/-! ### The collaborators -/

/-- `CpuState`: the projection `pc` of spec/10_state.md R38 and a code of everything else the CPU collaborator holds
(log 3). -/
structure CpuState where
  pc   : Addr
  code : Nat
  deriving DecidableEq, Repr, Inhabited

/-- `SetPc(cpu, v)` changes `pc` and nothing else (R38). -/
def CpuState.setPc (c : CpuState) (v : Addr) : CpuState := { c with pc := v }

/-- `PpuState`, coded (log 3). -/
structure PpuState where
  code : Nat
  deriving DecidableEq, Repr, Inhabited

/-- `ApuState`, coded (log 3). -/
structure ApuState where
  code : Nat
  deriving DecidableEq, Repr, Inhabited

/-- `Kind = NMI | IRQ | BRK`, the events the scheduler dispatches (R256, spec/60_exceptions.md R292). -/
inductive Interrupt where
  | nmi
  | irq
  | brk
  deriving DecidableEq, Repr

/-- `Prog(R)` of R256: a CPU step as a finite tree of bus transactions, of depth at most the index (log 4). -/
inductive BusProg (R : Type) : Nat → Type where
  | done {n : Nat} (r : R) : BusProg R n
  | read {n : Nat} (a : Addr) (k : Byte → BusProg R n) : BusProg R (n + 1)
  | write {n : Nat} (a : Addr) (d : Byte) (k : BusProg R n) : BusProg R (n + 1)

/-- `Prog'(R)` of R257: a video-chip step, of depth at most the index. -/
inductive PpuProg (R : Type) : Nat → Type where
  | done {n : Nat} (r : R) : PpuProg R n
  | regRead {n : Nat} (i : Fin 8) (k : Byte → PpuProg R n) : PpuProg R (n + 1)
  | regWrite {n : Nat} (i : Fin 8) (d : Byte) (k : PpuProg R n) : PpuProg R (n + 1)
  | chrRead {n : Nat} (v : PatAddr) (k : Byte → PpuProg R n) : PpuProg R (n + 1)
  | chrWrite {n : Nat} (v : PatAddr) (d : Byte) (k : PpuProg R n) : PpuProg R (n + 1)

/-- `Prog''(R)` of R258: an audio-chip step, of depth at most the index. -/
inductive ApuProg (R : Type) : Nat → Type where
  | done {n : Nat} (r : R) : ApuProg R n
  | regRead {n : Nat} (i : Fin 24) (k : Byte → ApuProg R n) : ApuProg R (n + 1)
  | regWrite {n : Nat} (i : Fin 24) (d : Byte) (k : ApuProg R n) : ApuProg R (n + 1)

/-- Every outcome of the program, whatever its reads return, satisfies `P`. -/
def BusProg.Always {R : Type} (P : R → Prop) : {n : Nat} → BusProg R n → Prop
  | _, .done r => P r
  | _, .read _ k => ∀ b, (k b).Always P
  | _, .write _ _ k => k.Always P

/-- The CPU collaborator of R256 with its obligations. The default field values only show that the type has a member
(the fixture `IDLE` of spec/95_test_vectors.md, but for the reset that keeps the code); nothing can prove of
`Config.collaborators` that it is that member. -/
structure CpuCollaborator (max : Nat) where
  /-- `CpuPowerOn`. -/
  powerOn    : CpuState := ⟨0#16, 0⟩
  /-- `CpuReset`. -/
  reset      : CpuState → CpuState := fun c => ⟨0#16, c.code⟩
  /-- `CpuIrqEnabled`. -/
  irqEnabled : CpuState → Bool := fun _ => false
  /-- `CpuStep`; the Boolean is `brk`. -/
  step       : CpuState → BusProg (CpuState × Bool) max := fun c => .done (c, false)
  /-- `CpuEnter`. -/
  enter      : CpuState → Interrupt → Addr → BusProg CpuState max := fun c _ v => .done (c.setPc v)
  /-- Obligation: `CpuReset` is idempotent. -/
  reset_reset : ∀ c, reset (reset c) = reset c := by intro c; rfl
  /-- Obligation: `CpuReset` does not look at `pc`. -/
  reset_setPc : ∀ c v, reset (c.setPc v) = reset c := by intro c v; rfl
  /-- Obligation: `CpuEnter(c, k, v)` finishes with `pc = v`. -/
  enter_pc    : ∀ c k v, (enter c k v).Always (fun c' => c'.pc = v) := by intro c k v; rfl
  deriving Inhabited

/-- The video-chip collaborator of R257 with its obligation. -/
structure PpuCollaborator (max : Nat) where
  /-- `PpuPowerOn`. -/
  powerOn : PpuState := ⟨0⟩
  /-- `PpuReset`. -/
  reset   : PpuState → PpuState := fun s => s
  /-- `PpuStep`; the Boolean is `nmi_req`. -/
  step    : PpuState → PpuProg (PpuState × Bool) max := fun s => .done (s, false)
  /-- Obligation: `PpuReset` is idempotent. -/
  reset_reset : ∀ s, reset (reset s) = reset s := by intro s; rfl
  deriving Inhabited

/-- The audio-chip collaborator of R258 with its obligation. -/
structure ApuCollaborator (max : Nat) where
  /-- `ApuPowerOn`. -/
  powerOn : ApuState := ⟨0⟩
  /-- `ApuReset`. -/
  reset   : ApuState → ApuState := fun s => s
  /-- `ApuStep`; the Boolean is `irq_level`. -/
  step    : ApuState → ApuProg (ApuState × Bool) max := fun s => .done (s, false)
  /-- Obligation: `ApuReset` is idempotent. -/
  reset_reset : ∀ s, reset (reset s) = reset s := by intro s; rfl
  deriving Inhabited

/-- The three collaborators of R8. -/
structure Collaborators (max : Nat) where
  cpu : CpuCollaborator max
  ppu : PpuCollaborator max
  apu : ApuCollaborator max
  deriving Inhabited

/-- The machine's collaborators, for each bound `P_MAX_BUS_PER_STEP`: universally quantified (U13, D24), so an opaque
constant without a body (log 2). -/
opaque Config.collaborators : (max : Nat) → Collaborators max

end Sys2Proof
end

