-- ==== Sys2Proof/Syntax.lean ====
section
/-! DEFINITION. The 24 operations of spec/opcode_table.json, the ports they arrive at (spec/30_encoding.md R100) and the
regions of the CPU address space that select a `BUS` operation (R102). -/

namespace Sys2Proof

/-- The three operation formats of R100, each with its own port. -/
inductive Port where
  | bus
  | chr
  | host
  deriving DecidableEq, Repr

/-- The regions of spec/20_memory.md R62 and R67. -/
inductive Region where
  | ram
  | ppu
  | iox
  | apu
  | exp
  | prg
  | sram
  deriving DecidableEq, Repr

/-- One constructor for each row of spec/opcode_table.json (R124). A `BUS` operation carries the CPU address `addr[15:0]`
and, on a write, `d[7:0]` (R101); a `CHR` operation the pattern address `v[12:0]` (R103); a host command its operands
(R104). -/
inductive Instr where
  | rdRam  (a : Addr)
  | rdPpu  (a : Addr)
  | rdIox  (a : Addr)
  | rdApu  (a : Addr)
  | rdPrg  (a : Addr)
  | rdSram (a : Addr)
  | rdExp  (a : Addr)
  | wrRam  (a : Addr) (d : Byte)
  | wrPpu  (a : Addr) (d : Byte)
  | wrIox  (a : Addr) (d : Byte)
  | wrApu  (a : Addr) (d : Byte)
  | wrPrg  (a : Addr) (d : Byte)
  | wrSram (a : Addr) (d : Byte)
  | wrExp  (a : Addr) (d : Byte)
  | chrRd  (v : PatAddr)
  | chrWr  (v : PatAddr) (d : Byte)
  | create
  | reset
  | load (image : List Byte) (allocOk : Bool)
  | tick
  | inspect
  | readmem  (a : Addr)
  | writemem (a : Addr) (d : Byte)
  | destroy
  deriving DecidableEq, Repr

/-- The port an operation arrives at (R100). -/
def Instr.port : Instr → Port
  | .rdRam _ | .rdPpu _ | .rdIox _ | .rdApu _ | .rdPrg _ | .rdSram _ | .rdExp _ => .bus
  | .wrRam _ _ | .wrPpu _ _ | .wrIox _ _ | .wrApu _ _ | .wrPrg _ _ | .wrSram _ _ | .wrExp _ _ => .bus
  | .chrRd _ | .chrWr _ _ => .chr
  | .create | .reset | .load _ _ | .tick | .inspect | .readmem _ | .writemem _ _ | .destroy => .host

end Sys2Proof
end

