-- ==== Sys2Proof/Machine/Operands.lean ====
section
/-! DEFINITION. Operand forms: an address presented to a port, what a CPU address resolves to (spec/20_memory.md R61 to
R71), the index each region uses, and the fields of a cartridge image (spec/30_encoding.md R108 to R118). -/

namespace Sys2Proof.Machine

/-! ### Addresses -/

/-- The boundary rule of the CPU bus: an address is taken modulo 0x10000 (R61). -/
def busAddress (n : Nat) : Addr := BitVec.ofNat 16 n

/-- The boundary rule of the video port: a pattern address is taken modulo 0x2000 (R71). -/
def patternAddress (n : Nat) : PatAddr := BitVec.ofNat 13 n

/-- Where a CPU address lands: a region and what `Decode` returns with it (R62, R67). -/
inductive Location where
  | ram  (i : Nat)
  | ppu  (i : Nat)
  | iox  (i : Nat)
  | apu  (i : Nat)
  | exp  (i : Nat)
  | prg  (a : Addr)
  | sram (i : Nat)
  deriving DecidableEq, Repr

/-- The region of a location. -/
def regionOfLocation : Location → Region
  | .ram _ => .ram
  | .ppu _ => .ppu
  | .iox _ => .iox
  | .apu _ => .apu
  | .exp _ => .exp
  | .prg _ => .prg
  | .sram _ => .sram

/-- `lowmem` index of a `RAM` address (R63). -/
def ramIndex (a : Addr) : Nat := (a &&& 0x07FF#16).toNat

/-- `ppuregs` index of a `PPU` address (R64). -/
def ppuIndex (a : Addr) : Nat := ((a - 0x2000#16) &&& 0x0007#16).toNat

/-- `apuregs` index of an `APU` address (R65). -/
def apuIndex (a : Addr) : Nat := (a - 0x4000#16).toNat

/-- `cart.prg_ram` index of an `SRAM` address (R69; spec/40_bus_access.md R148). -/
def sramIndex (p : Params) (a : Addr) : Nat := (a - 0x6000#16).toNat % p.prgRamSize

/-- `MapperDecode(a)`, for `a ≥ 0x4020` (R67). -/
def mapperDecode (a : Addr) : Location :=
  if 0x8000#16 ≤ a then .prg a
  else if 0x6000#16 ≤ a then .sram (a - 0x6000#16).toNat
  else .exp (a - 0x4020#16).toNat

/-- `Decode(a)` (R62): the first test that holds wins. -/
def decodeAddr (a : Addr) : Location :=
  if a < 0x2000#16 then .ram (ramIndex a)
  else if a < 0x4000#16 then .ppu (ppuIndex a)
  else if a < 0x4018#16 then .apu (apuIndex a)
  else if a < 0x4020#16 then .iox (a - 0x4018#16).toNat
  else mapperDecode a

/-- The region a CPU address belongs to (R68: exactly one). -/
def regionOf (a : Addr) : Region := regionOfLocation (decodeAddr a)

/-- The 16-bit value of two bytes, `hi || lo` (R74, spec/60_exceptions.md R291). -/
def wordOf (hi lo : Byte) : Addr := hi ++ lo

/-! ### Fields of a cartridge image (spec/30_encoding.md R109)

`s[k]` is `imageByte s k`. The loader reads it only where `k` is below the length. -/

/-- `s[k]`. -/
def imageByte (s : List Byte) (k : Nat) : Byte := s.getD k 0#8

/-- `rom_size = 0x4000 × s[4]` (R113). -/
def imageRomSize (s : List Byte) : Nat := 0x4000 * (imageByte s 4).toNat

/-- `vrom_size = 0x2000 × s[5]` (R113). -/
def imageVromSize (s : List Byte) : Nat := 0x2000 * (imageByte s 5).toNat

/-- `mapper_id = (s[7] & 0xF0) | (s[6] >> 4)` (R114). -/
def imageMapperId (s : List Byte) : Byte := (imageByte s 7 &&& 0xF0#8) ||| (imageByte s 6 >>> 4)

/-- `has_prg_ram = (s[8] ≠ 0)` (R115). -/
def imageHasPrgRam (s : List Byte) : Bool := imageByte s 8 != 0#8

/-- The other of the two formats (R116). -/
def otherFormat : Format → Format
  | .ntsc => .pal
  | .pal => .ntsc

/-- `format = P_REGION_ZERO if s[9] = 0 else the other format` (R116). -/
def imageFormat (p : Params) (s : List Byte) : Format :=
  if imageByte s 9 = 0#8 then p.regionZero else otherFormat p.regionZero

/-- The program ROM of the image (R118). -/
def imageRom (s : List Byte) : List Byte := (s.drop 16).take (imageRomSize s)

/-- The graphics ROM of the image (R118). -/
def imageVrom (s : List Byte) : List Byte := (s.drop (16 + imageRomSize s)).take (imageVromSize s)

end Sys2Proof.Machine
end

