-- ==== Sys2Proof/WellFormed.lean ====
section
/-! DEFINITION. Which terms of `Instr` are operations of the spec: a `BUS` operation's address lies in the operation's own
region (spec/40_bus_access.md R142 to R155, "Operand: a in ..."). The widths of every other operand are in its type. -/

namespace Sys2Proof

open Machine (regionOf)

/-- The check of each operation. -/
def Instr.wellFormed : Instr → Bool
  | .rdRam a => decide (regionOf a = .ram)
  | .rdPpu a => decide (regionOf a = .ppu)
  | .rdIox a => decide (regionOf a = .iox)
  | .rdApu a => decide (regionOf a = .apu)
  | .rdPrg a => decide (regionOf a = .prg)
  | .rdSram a => decide (regionOf a = .sram)
  | .rdExp a => decide (regionOf a = .exp)
  | .wrRam a _ => decide (regionOf a = .ram)
  | .wrPpu a _ => decide (regionOf a = .ppu)
  | .wrIox a _ => decide (regionOf a = .iox)
  | .wrApu a _ => decide (regionOf a = .apu)
  | .wrPrg a _ => decide (regionOf a = .prg)
  | .wrSram a _ => decide (regionOf a = .sram)
  | .wrExp a _ => decide (regionOf a = .exp)
  | .chrRd _ => true
  | .chrWr _ _ => true
  | .create => true
  | .reset => true
  | .load _ _ => true
  | .tick => true
  | .inspect => true
  | .readmem _ => true
  | .writemem _ _ => true
  | .destroy => true

end Sys2Proof
end

