-- ==== Sys2Proof/Decode.lean ====
section
/-! DEFINITION. The decoder and the encoder of the three ports' words (spec/30_encoding.md R100 to R104, R124;
spec/opcode_table.json). A request is the bytes of one word, lowest first, followed by its operand bytes; that byte layout
is the model's own (log 7, log 8), the words are the spec's. -/

namespace Sys2Proof

/-- Why bytes are no word of their port with its operands. -/
inductive DecodeError where
  /-- Fewer bytes than the word has. -/
  | shortWord
  /-- A bit above the word's width is set. -/
  | unusedBits
  /-- No row of the table matches (never, R102: the last pattern matches every address). -/
  | noRow
  /-- An operand is missing. -/
  | missingOperand
  /-- Bytes follow the last operand. -/
  | trailingBytes
  /-- The byte that carries `alloc_ok` is neither 0 nor 1 (log 8). -/
  | badFlag
  deriving DecidableEq, Repr

/-! ### Format `BUS` -/

/-- A row of the table for the format `BUS`: `mask` and `match` over the 17-bit word, and the operation it selects. -/
structure BusRow where
  mask    : BitVec 17
  pattern : BitVec 17
  write   : Bool
  region  : Region
  deriving DecidableEq, Repr

/-- The 14 rows of format `BUS` in spec/opcode_table.json, reads then writes, each in ascending priority (R102). -/
def busTable : List BusRow :=
  [⟨0x1E000#17, 0x00000#17, false, .ram⟩,
   ⟨0x1E000#17, 0x02000#17, false, .ppu⟩,
   ⟨0x1FFF8#17, 0x04018#17, false, .iox⟩,
   ⟨0x1FFE0#17, 0x04000#17, false, .apu⟩,
   ⟨0x18000#17, 0x08000#17, false, .prg⟩,
   ⟨0x1E000#17, 0x06000#17, false, .sram⟩,
   ⟨0x10000#17, 0x00000#17, false, .exp⟩] ++
  [⟨0x1E000#17, 0x10000#17, true, .ram⟩,
   ⟨0x1E000#17, 0x12000#17, true, .ppu⟩,
   ⟨0x1FFF8#17, 0x14018#17, true, .iox⟩,
   ⟨0x1FFE0#17, 0x14000#17, true, .apu⟩,
   ⟨0x18000#17, 0x18000#17, true, .prg⟩,
   ⟨0x1E000#17, 0x16000#17, true, .sram⟩,
   ⟨0x10000#17, 0x10000#17, true, .exp⟩]

/-- Whether a word has a row's pattern. -/
def BusRow.accepts (r : BusRow) (w : BitVec 17) : Bool := w &&& r.mask == r.pattern

/-- The row a `BUS` word selects: "first match wins" (R102). -/
def busRow (w : BitVec 17) : Option BusRow := busTable.find? (·.accepts w)

/-- The `BUS` word of an access: bit 16 is `rw`, bits 15:0 are `addr` (R101). -/
def busWord (write : Bool) (a : Addr) : BitVec 17 := BitVec.ofBool write ++ a

/-- The `addr` field of a `BUS` word. -/
def busWordAddr (w : BitVec 17) : Addr := w.extractLsb' 0 16

/-- The read operation of a region. -/
def readOp : Region → Addr → Instr
  | .ram, a => .rdRam a
  | .ppu, a => .rdPpu a
  | .iox, a => .rdIox a
  | .apu, a => .rdApu a
  | .exp, a => .rdExp a
  | .prg, a => .rdPrg a
  | .sram, a => .rdSram a

/-- The write operation of a region. -/
def writeOp : Region → Addr → Byte → Instr
  | .ram, a, d => .wrRam a d
  | .ppu, a, d => .wrPpu a d
  | .iox, a, d => .wrIox a d
  | .apu, a, d => .wrApu a d
  | .exp, a, d => .wrExp a d
  | .prg, a, d => .wrPrg a d
  | .sram, a, d => .wrSram a d

/-- An operation without operand bytes. -/
def noOperands (rest : List Byte) (i : Instr) : Except DecodeError Instr :=
  match rest with
  | [] => .ok i
  | _ :: _ => .error .trailingBytes

/-- An operation with the one operand byte `d[7:0]`. -/
def dataOperand (rest : List Byte) (f : Byte → Instr) : Except DecodeError Instr :=
  match rest with
  | [] => .error .missingOperand
  | [d] => .ok (f d)
  | _ :: _ :: _ => .error .trailingBytes

/-- The operation of a `BUS` word with the bytes after it. -/
def decodeBusWord (w : BitVec 17) (rest : List Byte) : Except DecodeError Instr :=
  match busRow w with
  | none => .error .noRow
  | some r =>
    if r.write then dataOperand rest (writeOp r.region (busWordAddr w))
    else noOperands rest (readOp r.region (busWordAddr w))

/-! ### Format `CHR` -/

/-- The `CHR` word of an access: bit 13 is `rw`, bits 12:0 are `v` (R103). -/
def chrWord (write : Bool) (v : PatAddr) : BitVec 14 := BitVec.ofBool write ++ v

/-- The `v` field of a `CHR` word. -/
def chrWordAddr (w : BitVec 14) : PatAddr := w.extractLsb' 0 13

/-- The operation of a `CHR` word with the bytes after it: mask 0x2000, match 0x2000 for `CHR.WR`, 0x0000 for `CHR.RD`. -/
def decodeChrWord (w : BitVec 14) (rest : List Byte) : Except DecodeError Instr :=
  if w &&& 0x2000#14 = 0x2000#14 then dataOperand rest (.chrWr (chrWordAddr w))
  else noOperands rest (.chrRd (chrWordAddr w))

/-! ### Format `HOST` -/

/-- The operation of a `HOST` code `op[2:0]` with the bytes after it (R104). -/
def decodeHostOp (op : Nat) (rest : List Byte) : Except DecodeError Instr :=
  match op with
  | 0 => noOperands rest .create
  | 1 => noOperands rest .reset
  | 2 =>
    match rest with
    | [] => .error .missingOperand
    | f :: image =>
      if f = 0#8 then .ok (.load image false)
      else if f = 1#8 then .ok (.load image true)
      else .error .badFlag
  | 3 => noOperands rest .tick
  | 4 => noOperands rest .inspect
  | 5 =>
    match rest with
    | lo :: hi :: [] => .ok (.readmem (hi ++ lo))
    | _ :: _ :: _ :: _ => .error .trailingBytes
    | _ => .error .missingOperand
  | 6 =>
    match rest with
    | lo :: hi :: d :: [] => .ok (.writemem (hi ++ lo) d)
    | _ :: _ :: _ :: _ :: _ => .error .trailingBytes
    | _ => .error .missingOperand
  | 7 => noOperands rest .destroy
  | _ => .error .unusedBits

/-! ### The decoder -/

/-- The operation the bytes of a request stand for; total, and a rejection says why. -/
def decode : Port → List Byte → Except DecodeError Instr
  | .bus, b0 :: b1 :: b2 :: rest =>
    if b2 &&& 0xFE#8 = 0#8 then decodeBusWord ((b2 ++ (b1 ++ b0)).setWidth 17) rest else .error .unusedBits
  | .bus, _ => .error .shortWord
  | .chr, b0 :: b1 :: rest =>
    if b1 &&& 0xC0#8 = 0#8 then decodeChrWord ((b1 ++ b0).setWidth 14) rest else .error .unusedBits
  | .chr, _ => .error .shortWord
  | .host, b0 :: rest => decodeHostOp b0.toNat rest
  | .host, [] => .error .shortWord

/-! ### The encoder -/

/-- Byte `k` of a word, byte 0 its low byte. -/
def byteOf {n : Nat} (w : BitVec n) (k : Nat) : Byte := w.extractLsb' (8 * k) 8

/-- The three bytes of a `BUS` word. -/
def busBytes (write : Bool) (a : Addr) : List Byte :=
  [byteOf (busWord write a) 0, byteOf (busWord write a) 1, byteOf (busWord write a) 2]

/-- The two bytes of a `CHR` word. -/
def chrBytes (write : Bool) (v : PatAddr) : List Byte :=
  [byteOf (chrWord write v) 0, byteOf (chrWord write v) 1]

/-- The byte that carries `alloc_ok` (log 8). -/
def flagByte (b : Bool) : Byte := if b then 1#8 else 0#8

/-- The bytes of an operation: its word, then its operands. -/
def encode : Instr → List Byte
  | .rdRam a => busBytes false a
  | .rdPpu a => busBytes false a
  | .rdIox a => busBytes false a
  | .rdApu a => busBytes false a
  | .rdPrg a => busBytes false a
  | .rdSram a => busBytes false a
  | .rdExp a => busBytes false a
  | .wrRam a d => busBytes true a ++ [d]
  | .wrPpu a d => busBytes true a ++ [d]
  | .wrIox a d => busBytes true a ++ [d]
  | .wrApu a d => busBytes true a ++ [d]
  | .wrPrg a d => busBytes true a ++ [d]
  | .wrSram a d => busBytes true a ++ [d]
  | .wrExp a d => busBytes true a ++ [d]
  | .chrRd v => chrBytes false v
  | .chrWr v d => chrBytes true v ++ [d]
  | .create => [0#8]
  | .reset => [1#8]
  | .load image ok => 2#8 :: flagByte ok :: image
  | .tick => [3#8]
  | .inspect => [4#8]
  | .readmem a => [5#8, byteOf a 0, byteOf a 1]
  | .writemem a d => [6#8, byteOf a 0, byteOf a 1, d]
  | .destroy => [7#8]

/-! ### A row of spec/opcode_table.json as a request -/

/-- Which format a row of `nbits` bits belongs to: 3 bits are `HOST`, 14 are `CHR`, 17 are `BUS` (R100; log 9). -/
def portOfBits (nbits : Nat) : Port :=
  if nbits ≤ 8 then .host else if nbits ≤ 16 then .chr else .bus

/-- Byte `k` of the number `w`. -/
def numByte (w k : Nat) : Byte := BitVec.ofNat 8 (w / 256 ^ k)

/-- How many operand bytes the word `w` of a port takes at the least; a `LOAD` whose operand bits are all 0 has
`alloc_ok` false and an empty image (log 9). -/
def operandCount : Port → Nat → Nat
  | .bus, w => w / 0x10000 % 2
  | .chr, w => w / 0x2000 % 2
  | .host, 2 => 1
  | .host, 5 => 2
  | .host, 6 => 3
  | .host, _ => 0

/-- The bytes of the word `w` at a port, its operands all zero. -/
def tableBytes (port : Port) (w : Nat) : List Byte :=
  (match port with
    | .bus => [numByte w 0, numByte w 1, numByte w 2]
    | .chr => [numByte w 0, numByte w 1]
    | .host => [numByte w 0]) ++ List.replicate (operandCount port w) 0#8

/-- The operation the decoder reads from an instruction whose bits are `w`, numbered as spec/opcode_table.json numbers
them. -/
def decodeTableWord (nbits w : Nat) : Option Instr :=
  match decode (portOfBits nbits) (tableBytes (portOfBits nbits) w) with
  | .ok i => some i
  | .error _ => none

end Sys2Proof
end

