-- ==== Sys2Proof/Machine/State.lean ====
section
/-! DEFINITION. The state of one machine (spec/10_state.md), as plain data; why a step can stop; the state after reset
(the `CREATE` column of R44, log 5). -/

namespace Sys2Proof.Machine

/-! ### Storage -/

/-- The contents of an array as cells (index, byte): indexes strictly rising, and no cell equal to what an unlisted index
reads as, which is `P_RESET_FILL` (R44, log 16). -/
abbrev Memory := List Host.Cell

/-- `source_type`: only `iNES` is defined (R25, log 23). -/
inductive SourceType where
  | ines
  deriving DecidableEq, Repr

/-- The header descriptor `cart.hdr` (R25). -/
structure Header where
  format       : Format
  prgBankCount : Byte
  chrBankCount : Byte
  hasPrgRam    : Bool
  mapperId     : Byte
  sourceType   : SourceType
  deriving DecidableEq, Repr

/-- The cartridge record (R24 to R32). `chrRam` and `prgRam` are present or absent as R31 and R32 say. -/
structure Cart where
  hdr     : Header
  rom     : List Byte
  vrom    : List Byte
  variant : Variant
  prgBank : Byte
  chrBank : Byte
  chrRam  : Option Memory
  prgRam  : Option Memory
  deriving DecidableEq, Repr

/-- Everything a live machine holds (R21 to R36). -/
structure Ncore where
  lowmem     : Memory
  ppuregs    : Memory
  apuregs    : Memory
  cart       : Option Cart
  cpuSteps   : Nat
  ppuSteps   : Nat
  apuSteps   : Nat
  nmiPending : Bool
  irqLine    : Bool
  cpu        : CpuState
  ppu        : PpuState
  apu        : ApuState
  deriving DecidableEq, Repr

/-- `life` (R20): "All the state below exists only while `life = LIVE`". -/
inductive Life where
  | absent
  | live (m : Ncore)
  | dead
  deriving DecidableEq, Repr

/-! ### What an operation returns (spec/30_encoding.md R106) -/

/-- The four errors of `LOAD` with their payloads (spec/30_encoding.md R107). They are results: the machine goes on
(spec/60_exceptions.md R280). -/
inductive LoadError where
  | badMagic (expected found : List Byte)
  | truncatedImage (expected actual : Nat)
  | unsupportedMapper (id : Byte)
  | outOfMemory
  deriving DecidableEq, Repr

/-- The fields of a snapshot that stand in it only if a cartridge is loaded (spec/43_facade_scheduler.md R246). -/
structure CartView where
  hdr     : Header
  variant : Variant
  prgBank : Byte
  chrBank : Byte
  deriving DecidableEq, Repr

/-- `DebugSnapshot` (R246). -/
structure Snapshot where
  loaded     : Bool
  cart       : Option CartView
  cpuSteps   : Nat
  ppuSteps   : Nat
  apuSteps   : Nat
  nmiPending : Bool
  irqLine    : Bool
  pc         : Addr
  deriving DecidableEq, Repr

/-- What the last operation returned to its issuer (R106). The model's own field (log 10). -/
inductive Result where
  /-- The operation returns nothing. -/
  | nothing
  /-- A `BUS` read, a `CHR` read or `READMEM`. -/
  | byte (b : Byte)
  /-- `LOAD` returned `OK`. -/
  | loadOk
  /-- `LOAD` returned an error. -/
  | loadError (e : LoadError)
  /-- `INSPECT`. -/
  | snapshot (v : Snapshot)
  deriving DecidableEq, Repr

/-! ### Why a step can stop -/

/-- No fault exists: "No bus, video-port or host operation on a live machine can fault" (spec/60_exceptions.md R286). The
type has no constructor, so no step of the model ends in a fault. -/
inductive Fault where
  deriving DecidableEq, Repr

/-- Why a step is refused. Every one is safe: the model stops where the spec gives no meaning. -/
inductive Refusal where
  /-- Raised by an arm of `exec` whose operation has no meaning yet (none). Safe. -/
  | notModelled (mnemonic : String)
  /-- Raised by every operation but `CREATE` when `life ≠ LIVE`: "Outside its domain a command is refused"
  (spec/43_facade_scheduler.md R241). Safe. -/
  | notLive
  /-- Raised by `CREATE` when `life ≠ ABSENT` (R240, R241). Safe. -/
  | notAbsent
  /-- Raised by a `BUS` operation whose address lies outside its region: no word of the port decodes to it (log 13). Safe. -/
  | addressOutsideRegion
  /-- Raised by `step` when the first request stands at a port that the agent whose turn it is does not hold: no such word
  reaches the block (spec/30_encoding.md R105, "Who may issue which format"; log 12). Safe. -/
  | notItsTurn (p : Port)
  /-- Raised by `step` when the bytes of a request are no word of their port with its operands (log 14). Safe. -/
  | malformedRequest (e : DecodeError)
  deriving DecidableEq, Repr

/-! ### The state -/

/-- The agents of spec/60_exceptions.md R298. They "take turns in a fixed order under one thread" (R301). -/
inductive Agent where
  /-- The host, between commands. -/
  | host
  /-- The CPU collaborator, inside its own step or `CpuEnter`. -/
  | cpu
  /-- The video-chip collaborator, inside its own step. -/
  | ppu
  /-- The audio-chip collaborator, inside its own step. -/
  | apu
  /-- The block itself, on a vector read or on the host's behalf. -/
  | block
  deriving DecidableEq, Repr

/-- A port word handed to the machine, with its operand bytes. -/
structure Request where
  port  : Port
  bytes : List Byte
  deriving DecidableEq, Repr

/-- What the queue of requests offers next. -/
inductive Fetched where
  /-- No request is waiting. -/
  | idle
  /-- The first request stands at a port that the agent in turn does not hold. -/
  | barred (p : Port)
  /-- The first request is no word of its port. -/
  | malformed (e : DecodeError)
  /-- The first request is the operation `i`; `rest` is the queue after it. -/
  | operation (i : Instr) (rest : List Request)
  deriving DecidableEq, Repr

/-- One machine. `life` holds all the spec gives it; `params` are its parameters, changed by no step (log 1); `turn` is the
agent that runs, which decides the ports that can carry a word (R298, log 12); `requests` and `result` are what goes in and
out (log 6, log 10). -/
structure State where
  params   : Params
  life     : Life
  turn     : Agent
  requests : List Request
  result   : Result
  deriving DecidableEq, Repr

/-! ### Updates, one name each -/

def State.setLife (s : State) (x : Life) : State := { s with life := x }
def State.setTurn (s : State) (x : Agent) : State := { s with turn := x }
def State.setRequests (s : State) (x : List Request) : State := { s with requests := x }
def State.setResult (s : State) (x : Result) : State := { s with result := x }

def Ncore.setLowmem (m : Ncore) (x : Memory) : Ncore := { m with lowmem := x }
def Ncore.setPpuregs (m : Ncore) (x : Memory) : Ncore := { m with ppuregs := x }
def Ncore.setApuregs (m : Ncore) (x : Memory) : Ncore := { m with apuregs := x }
def Ncore.setCart (m : Ncore) (x : Option Cart) : Ncore := { m with cart := x }
def Ncore.setCpuSteps (m : Ncore) (x : Nat) : Ncore := { m with cpuSteps := x }
def Ncore.setPpuSteps (m : Ncore) (x : Nat) : Ncore := { m with ppuSteps := x }
def Ncore.setApuSteps (m : Ncore) (x : Nat) : Ncore := { m with apuSteps := x }
def Ncore.setNmiPending (m : Ncore) (x : Bool) : Ncore := { m with nmiPending := x }
def Ncore.setIrqLine (m : Ncore) (x : Bool) : Ncore := { m with irqLine := x }
def Ncore.setCpu (m : Ncore) (x : CpuState) : Ncore := { m with cpu := x }
def Ncore.setPpu (m : Ncore) (x : PpuState) : Ncore := { m with ppu := x }
def Ncore.setApu (m : Ncore) (x : ApuState) : Ncore := { m with apu := x }

def Cart.setPrgBank (c : Cart) (x : Byte) : Cart := { c with prgBank := x }
def Cart.setChrBank (c : Cart) (x : Byte) : Cart := { c with chrBank := x }
def Cart.setChrRam (c : Cart) (x : Option Memory) : Cart := { c with chrRam := x }
def Cart.setPrgRam (c : Cart) (x : Option Memory) : Cart := { c with prgRam := x }

/-! ### Reset -/

/-- A live machine as the `CREATE` column of R44 gives it; the vector read happens with no cartridge, so
`v0 = P_OPEN_BUS || P_OPEN_BUS`. -/
def Ncore.created {n : Nat} (p : Params) (k : Collaborators n) : Ncore where
  lowmem := []
  ppuregs := []
  apuregs := []
  cart := none
  cpuSteps := 0
  ppuSteps := 0
  apuSteps := 0
  nmiPending := false
  irqLine := false
  cpu := (k.cpu.reset k.cpu.powerOn).setPc (p.openBus ++ p.openBus)
  ppu := k.ppu.reset k.ppu.powerOn
  apu := k.apu.reset k.apu.powerOn

/-- The machine's collaborators. -/
def State.chips (s : State) : Collaborators s.params.maxBusPerStep :=
  Config.collaborators s.params.maxBusPerStep

/-- The machine right after reset: live, no cartridge, between commands, no request waiting, under `CFG0` (log 1, log 5,
log 12). -/
def State.reset : State where
  params := Params.cfg0
  life := .live (Ncore.created Params.cfg0 (Config.collaborators Params.cfg0.maxBusPerStep))
  turn := .host
  requests := []
  result := .nothing

end Sys2Proof.Machine
end

