-- ==== Sys2Proof/Machine/Flags.lean ====
section
/-! DEFINITION. The block has no condition codes (spec/10_state.md R39). Its one-bit state is the two interrupt flags
(R34, R35); the step counters of R33 stand here too. -/

namespace Sys2Proof.Machine

/-- A video step's report: `if nmi_req : nmi_pending <- 1` (spec/43_facade_scheduler.md R253); a set latch stays set and
requests do not queue (spec/60_exceptions.md R288). -/
def latchNmi (req : Bool) (m : Ncore) : Ncore := if req then m.setNmiPending true else m

/-- `nmi_pending <- 0` at the dispatch (R251, R288). -/
def takeNmi (m : Ncore) : Ncore := m.setNmiPending false

/-- An audio step's report: `irq_line <- irq_level` (R254); the line is a level (spec/60_exceptions.md R289). -/
def driveIrq (level : Bool) (m : Ncore) : Ncore := m.setIrqLine level

/-- Both flags as `RESET` leaves them (R242 step 3). -/
def clearInterrupts (m : Ncore) : Ncore := (m.setNmiPending false).setIrqLine false

/-- A counter's next value, `(c + 1) mod 2^P_COUNTER_BITS` (R33). -/
def countUp (p : Params) (c : Nat) : Nat := (c + 1) % 2 ^ p.counterBits

/-- One CPU slot counted (R251). -/
def countCpu (p : Params) (m : Ncore) : Ncore := m.setCpuSteps (countUp p m.cpuSteps)

/-- One video step counted (R253). -/
def countPpu (p : Params) (m : Ncore) : Ncore := m.setPpuSteps (countUp p m.ppuSteps)

/-- One audio step counted (R254). -/
def countApu (p : Params) (m : Ncore) : Ncore := m.setApuSteps (countUp p m.apuSteps)

/-- The counters as `RESET` leaves them (R242 step 3). -/
def clearCounters (m : Ncore) : Ncore := ((m.setCpuSteps 0).setPpuSteps 0).setApuSteps 0

end Sys2Proof.Machine
end

