-- ==== Sys2Proof/Machine/Mapper.lean ====
section
/-! DEFINITION. The mapper: bank translation and the bank-switch state machine (spec/41_mapper.md). A mapper is
`cart.variant` with the bank registers and buffers of the record (R170). -/

namespace Sys2Proof.Machine

/-- `rom_size = 0x4000 × cart.hdr.prg_bank_count` (spec/10_state.md R26). -/
def romSize (c : Cart) : Nat := 0x4000 * c.hdr.prgBankCount.toNat

/-- `vrom_size = 0x2000 × cart.hdr.chr_bank_count` (spec/10_state.md R27). -/
def vromSize (c : Cart) : Nat := 0x2000 * c.hdr.chrBankCount.toNat

/-- The size of `ChrBuf` (R188). -/
def chrBufSize (p : Params) (c : Cart) : Nat :=
  if c.hdr.chrBankCount = 0#8 then p.chrRamSize else vromSize c

/-- `MapperConstruct(id)`: the variant `P_VARIANTS[id]`, or no variant (R172). -/
def mapperConstruct (p : Params) (id : Byte) : Option Variant := p.variants.lookup id

/-- `translate_prg`, variant `FIXED` (R180). -/
def translatePrgFixed (c : Cart) (a : Addr) : Nat := (a &&& 0x7FFF#16).toNat % romSize c

/-- `translate_prg`, variant `PRGSW` (R181). -/
def translatePrgSwitched (c : Cart) (a : Addr) : Nat :=
  (if a < 0xC000#16 then c.prgBank.toNat % c.hdr.prgBankCount.toNat else c.hdr.prgBankCount.toNat - 1) * 0x4000
    + (a &&& 0x3FFF#16).toNat

/-- `translate_prg(a)` (R179); variant `CHRSW` is the function of `FIXED` (R182). -/
def translatePrg (c : Cart) (a : Addr) : Nat :=
  match c.variant with
  | .fixed => translatePrgFixed c a
  | .prgsw => translatePrgSwitched c a
  | .chrsw => translatePrgFixed c a

/-- `translate_chr`, variants `FIXED` and `PRGSW` (R183). -/
def translateChrFixed (p : Params) (c : Cart) (v : PatAddr) : Nat := v.toNat % chrBufSize p c

/-- `translate_chr`, variant `CHRSW` (R184). -/
def translateChrSwitched (p : Params) (c : Cart) (v : PatAddr) : Nat :=
  if c.hdr.chrBankCount = 0#8 then v.toNat % p.chrRamSize
  else (c.chrBank.toNat % c.hdr.chrBankCount.toNat) * 0x2000 + v.toNat

/-- `translate_chr(v)`. -/
def translateChr (p : Params) (c : Cart) (v : PatAddr) : Nat :=
  match c.variant with
  | .fixed => translateChrFixed p c v
  | .prgsw => translateChrFixed p c v
  | .chrsw => translateChrSwitched p c v

/-- `on_write(a, d)`: the bank-control side effect (R185, R186, R187). -/
def onWrite (c : Cart) (a : Addr) (d : Byte) : Cart :=
  match c.variant with
  | .fixed => c
  | .prgsw => if 0x8000#16 ≤ a then c.setPrgBank d else c
  | .chrsw => if 0x8000#16 ≤ a then c.setChrBank d else c

/-- Both bank registers as `RESET` leaves them (spec/43_facade_scheduler.md R242 step 2). -/
def clearBanks (c : Cart) : Cart := (c.setPrgBank 0#8).setChrBank 0#8

end Sys2Proof.Machine
end

