-- ==== Sys2Proof/Machine/Ops.lean ====
section
/-! DEFINITION. The operations the meanings share: arrays, the seven regions' reads and writes (spec/40_bus_access.md), the
video port (spec/41_mapper.md), vectors, running a collaborator's step, taking an interrupt (spec/60_exceptions.md), the
reset procedure (spec/43_facade_scheduler.md), how a meaning ends, and who may issue the next request. -/

namespace Sys2Proof.Machine

/-! ### Arrays -/

/-- Element `i` of an array; an index without a cell reads as `fill`. -/
def Memory.read (fill : Byte) : Memory → Nat → Byte
  | [], _ => fill
  | (j, e) :: rest, i => if i = j then e else Memory.read fill rest i

/-- `arr[i] <- d`, keeping the canonical form: storing `fill` removes the cell. -/
def Memory.write (fill : Byte) : Memory → Nat → Byte → Memory
  | [], i, d => if d = fill then [] else [(i, d)]
  | (j, e) :: rest, i, d =>
    if i < j then (if d = fill then (j, e) :: rest else (i, d) :: (j, e) :: rest)
    else if i = j then (if d = fill then rest else (i, d) :: rest)
    else (j, e) :: Memory.write fill rest i d

/-- The canonical form from the index `lo` on: indexes at least `lo` and strictly rising, no cell equal to `fill`. -/
def Memory.wfFrom (fill : Byte) : Nat → Memory → Bool
  | _, [] => true
  | lo, (j, e) :: rest => decide (lo ≤ j) && decide (e ≠ fill) && Memory.wfFrom fill (j + 1) rest

/-- The canonical form. -/
def Memory.wf (fill : Byte) (m : Memory) : Bool := Memory.wfFrom fill 0 m

/-- Every cell's index is below `size`. -/
def Memory.below (size : Nat) (m : Memory) : Bool := m.all (fun c => decide (c.1 < size))

/-- Byte `i` of a ROM buffer. Every index the rules form is in bounds (R173), so the fall-back is never taken (log 17). -/
def romRead (p : Params) (buf : List Byte) (i : Nat) : Byte := buf.getD i p.openBus

/-! ### The seven reads (spec/40_bus_access.md R142 to R148) -/

/-- `RD.RAM` (R142). -/
def readRam (p : Params) (m : Ncore) (a : Addr) : Byte := Memory.read p.resetFill m.lowmem (ramIndex a)

/-- `RD.PPU` (R143). -/
def readPpu (p : Params) (m : Ncore) (a : Addr) : Byte := Memory.read p.resetFill m.ppuregs (ppuIndex a)

/-- `RD.APU` (R145). -/
def readApu (p : Params) (m : Ncore) (a : Addr) : Byte := Memory.read p.resetFill m.apuregs (apuIndex a)

/-- `RD.IOX` and `RD.EXP`: a place without storage (R144, R146). -/
def readOpenBus (p : Params) : Byte := p.openBus

/-- `RD.PRG` (R147). -/
def readPrg (p : Params) (m : Ncore) (a : Addr) : Byte :=
  match m.cart with
  | none => p.openBus
  | some c => if romSize c = 0 then p.openBus else romRead p c.rom (translatePrg c a)

/-- `RD.SRAM` (R148). A record with `has_prg_ram` has its `prg_ram` (R32), so the inner fall-back is never taken (log 18). -/
def readSram (p : Params) (m : Ncore) (a : Addr) : Byte :=
  match m.cart with
  | none => p.openBus
  | some c =>
    if c.hdr.hasPrgRam then
      match c.prgRam with
      | none => p.openBus
      | some ram => Memory.read p.resetFill ram (sramIndex p a)
    else p.openBus

/-- `MemRead(a, 1)`: the one read operation of the region of `a` (R140). It changes no state. -/
def memRead (p : Params) (m : Ncore) (a : Addr) : Byte :=
  match regionOf a with
  | .ram => readRam p m a
  | .ppu => readPpu p m a
  | .iox => readOpenBus p
  | .apu => readApu p m a
  | .exp => readOpenBus p
  | .prg => readPrg p m a
  | .sram => readSram p m a

/-! ### The seven writes (spec/40_bus_access.md R149 to R155) -/

/-- `WR.RAM` (R149). -/
def writeRam (p : Params) (m : Ncore) (a : Addr) (d : Byte) : Ncore :=
  m.setLowmem (Memory.write p.resetFill m.lowmem (ramIndex a) d)

/-- `ppuregs[i] <- d` (R150, R257). -/
def storePpu (p : Params) (m : Ncore) (i : Nat) (d : Byte) : Ncore :=
  m.setPpuregs (Memory.write p.resetFill m.ppuregs i d)

/-- `apuregs[i] <- d` (R152, R258). -/
def storeApu (p : Params) (m : Ncore) (i : Nat) (d : Byte) : Ncore :=
  m.setApuregs (Memory.write p.resetFill m.apuregs i d)

/-- `WR.PPU` (R150). -/
def writePpu (p : Params) (m : Ncore) (a : Addr) (d : Byte) : Ncore := storePpu p m (ppuIndex a) d

/-- `WR.APU` (R152). -/
def writeApu (p : Params) (m : Ncore) (a : Addr) (d : Byte) : Ncore := storeApu p m (apuIndex a) d

/-- `WR.IOX`: nothing; `d` is discarded (R151). -/
def writeIox (m : Ncore) : Ncore := m

/-- `WR.EXP`: the write reaches `on_write`, which ignores addresses below 0x8000 (R153), so nothing. -/
def writeExp (m : Ncore) : Ncore := m

/-- `WR.PRG` (R154): `cart.rom` is never written; the bank registers may be. -/
def writePrg (m : Ncore) (a : Addr) (d : Byte) : Ncore :=
  match m.cart with
  | none => m
  | some c => m.setCart (some (onWrite c a d))

/-- `WR.SRAM` (R155); the inner fall-back is never taken (log 18). -/
def writeSram (p : Params) (m : Ncore) (a : Addr) (d : Byte) : Ncore :=
  match m.cart with
  | none => m
  | some c =>
    if c.hdr.hasPrgRam then
      match c.prgRam with
      | none => m
      | some ram => m.setCart (some (c.setPrgRam (some (Memory.write p.resetFill ram (sramIndex p a) d))))
    else m

/-- `MemWrite(a, 1, d)`: the one write operation of the region of `a` (R141). -/
def memWrite (p : Params) (m : Ncore) (a : Addr) (d : Byte) : Ncore :=
  match regionOf a with
  | .ram => writeRam p m a d
  | .ppu => writePpu p m a d
  | .iox => writeIox m
  | .apu => writeApu p m a d
  | .exp => writeExp m
  | .prg => writePrg m a d
  | .sram => writeSram p m a d

/-! ### The video port (spec/41_mapper.md R188, R190, R191) -/

/-- `ChrRead(v)` (R190). A record with no graphics banks has its `chr_ram` (R31), so the inner fall-back is never taken
(log 18). -/
def chrRead (p : Params) (m : Ncore) (v : PatAddr) : Byte :=
  match m.cart with
  | none => p.openBus
  | some c =>
    if c.hdr.chrBankCount = 0#8 then
      match c.chrRam with
      | none => p.openBus
      | some ram => Memory.read p.resetFill ram (translateChr p c v)
    else romRead p c.vrom (translateChr p c v)

/-- `ChrWrite(v, d)` (R191): graphics ROM is read-only, and bank control is by CPU writes only. -/
def chrWrite (p : Params) (m : Ncore) (v : PatAddr) (d : Byte) : Ncore :=
  match m.cart with
  | none => m
  | some c =>
    if c.hdr.chrBankCount = 0#8 then
      match c.chrRam with
      | none => m
      | some ram => m.setCart (some (c.setChrRam (some (Memory.write p.resetFill ram (translateChr p c v) d))))
    else m

/-! ### Vectors (spec/60_exceptions.md R291; spec/20_memory.md R70) -/

/-- The address of the non-maskable-interrupt handler address. -/
def vecNmi : Addr := 0xFFFA#16

/-- The address of the reset handler address. -/
def vecReset : Addr := 0xFFFC#16

/-- The address of the break handler address. -/
def vecBrk : Addr := 0xFFFE#16

/-- `ReadVector(a)`: two bus reads, the low byte at the lower address (R74). -/
def readVector (p : Params) (m : Ncore) (a : Addr) : Addr := wordOf (memRead p m (a + 1)) (memRead p m a)

/-! ### Running a collaborator's step (spec/43_facade_scheduler.md R252) -/

/-- `Run` of a CPU program: each transaction is performed at once, in issue order. -/
def runBus (p : Params) {R : Type} : {n : Nat} → BusProg R n → Ncore → R × Ncore
  | _, .done r, m => (r, m)
  | _, .read a k, m => runBus p (k (memRead p m a)) m
  | _, .write a d k, m => runBus p k (memWrite p m a d)

/-- `Run` of a video-chip program: `ppuregs` and the video port only (R257). -/
def runPpu (p : Params) {R : Type} : {n : Nat} → PpuProg R n → Ncore → R × Ncore
  | _, .done r, m => (r, m)
  | _, .regRead i k, m => runPpu p (k (Memory.read p.resetFill m.ppuregs i.val)) m
  | _, .regWrite i d k, m => runPpu p k (storePpu p m i.val d)
  | _, .chrRead v k, m => runPpu p (k (chrRead p m v)) m
  | _, .chrWrite v d k, m => runPpu p k (chrWrite p m v d)

/-- `Run` of an audio-chip program: `apuregs` only (R258). -/
def runApu (p : Params) {R : Type} : {n : Nat} → ApuProg R n → Ncore → R × Ncore
  | _, .done r, m => (r, m)
  | _, .regRead i k, m => runApu p (k (Memory.read p.resetFill m.apuregs i.val)) m
  | _, .regWrite i d k, m => runApu p k (storeApu p m i.val d)

/-! ### Taking an interrupt, and returning from one -/

/-- The vector of an interrupt: `0xFFFA if k = NMI else 0xFFFE` (R292). -/
def vectorOf : Interrupt → Addr
  | .nmi => vecNmi
  | .irq => vecBrk
  | .brk => vecBrk

/-- `Dispatch(k)` (R292), the whole of what the block does at trap entry: read the handler address with the mapper state
of the moment, hand it with the kind to the CPU collaborator, and run the entry it answers with. What is saved, where, and
what mask is set is the collaborator's; the block saves nothing and keeps no "in service" bit. There is no return beside it:
"The block has no return-from-trap operation and restores nothing" (R295); a return is ordinary bus transactions of a CPU
step. -/
def dispatch (p : Params) {n : Nat} (k : Collaborators n) (e : Interrupt) (m : Ncore) : Ncore :=
  let entered := runBus p (k.cpu.enter m.cpu e (readVector p m (vectorOf e))) m
  entered.2.setCpu entered.1

/-! ### `ResetProcedure` (spec/43_facade_scheduler.md R242) -/

/-- Step 1: the three arrays are filled. -/
def fillArrays (m : Ncore) : Ncore := ((m.setLowmem []).setPpuregs []).setApuregs []

/-- Step 2: the bank registers of a loaded cartridge are cleared. -/
def resetBanks (m : Ncore) : Ncore := m.setCart (m.cart.map clearBanks)

/-- Step 4: the collaborators are reset. -/
def resetChips {n : Nat} (k : Collaborators n) (m : Ncore) : Ncore :=
  ((m.setCpu (k.cpu.reset m.cpu)).setPpu (k.ppu.reset m.ppu)).setApu (k.apu.reset m.apu)

/-- Step 5: `pc <- ReadVector(0xFFFC)`, through the ordinary decode. -/
def loadResetVector (p : Params) (m : Ncore) : Ncore := m.setCpu (m.cpu.setPc (readVector p m vecReset))

/-- `ResetProcedure`, its five steps in order. -/
def resetProcedure (p : Params) {n : Nat} (k : Collaborators n) (m : Ncore) : Ncore :=
  loadResetVector p (resetChips k (clearInterrupts (clearCounters (resetBanks (fillArrays m)))))

/-! ### How a meaning ends -/

/-- The outcome of a step. -/
abbrev Out := Host.Outcome State Fault Refusal

/-- The operation returns `r` and changes nothing. -/
def reply (s : State) (r : Result) : Out := .next (s.setResult r)

/-- The live machine becomes `m` and the operation returns `r`. -/
def commit (s : State) (m : Ncore) (r : Result) : Out := .next ((s.setLife (.live m)).setResult r)

/-- "Every operation other than `CREATE` requires `life = LIVE` and is refused otherwise" (spec/10_state.md R20). -/
def onLive (s : State) (f : Ncore → Out) : Out :=
  match s.life with
  | .live m => f m
  | .absent => .refused .notLive
  | .dead => .refused .notLive

/-- A `BUS` operation of the region `r` on a live machine; an address of another region is no operand of it (log 13). -/
def onRegion (r : Region) (a : Addr) (s : State) (f : Ncore → Out) : Out :=
  onLive s fun m => if regionOf a = r then f m else .refused .addressOutsideRegion

/-! ### Who may issue which format, and the next request (spec/30_encoding.md R105; spec/60_exceptions.md R298) -/

/-- The ports an agent in turn holds: `HOST` words "come from the host only", `BUS` words "from the CPU collaborator during
a CPU slot and from the block itself", `CHR` words "from the video-chip collaborator during a video step only" (R105). -/
def mayIssue (a : Agent) : Port → Bool
  | .host => decide (a = .host)
  | .bus => decide (a = .cpu) || decide (a = .block)
  | .chr => decide (a = .ppu)

/-- The agent outside the block that issues the words of a port (R105). -/
def issuer : Port → Agent
  | .host => .host
  | .bus => .cpu
  | .chr => .ppu

/-- What the queue of requests offers next in the turn of the agent `a` (log 6, log 12). -/
def fetch (a : Agent) : List Request → Fetched
  | [] => .idle
  | q :: rest =>
    if mayIssue a q.port then
      match decode q.port q.bytes with
      | .ok i => .operation i rest
      | .error e => .malformed e
    else .barred q.port

end Sys2Proof.Machine
end

