-- ==== Sys2Proof/Machine/BusRead.lean ====
section
/-! DEFINITION. The seven reads of format `BUS` (spec/40_bus_access.md R142 to R148): each returns one byte and changes no
state of the machine (spec/20_memory.md R77). -/

namespace Sys2Proof.Machine

/-- `RD.RAM` (R142). -/
def execRdRam (a : Addr) (s : State) : Out := onRegion .ram a s fun m => reply s (.byte (readRam s.params m a))

/-- `RD.PPU` (R143). -/
def execRdPpu (a : Addr) (s : State) : Out := onRegion .ppu a s fun m => reply s (.byte (readPpu s.params m a))

/-- `RD.IOX` (R144). -/
def execRdIox (a : Addr) (s : State) : Out := onRegion .iox a s fun _ => reply s (.byte (readOpenBus s.params))

/-- `RD.APU` (R145). -/
def execRdApu (a : Addr) (s : State) : Out := onRegion .apu a s fun m => reply s (.byte (readApu s.params m a))

/-- `RD.PRG` (R147). -/
def execRdPrg (a : Addr) (s : State) : Out := onRegion .prg a s fun m => reply s (.byte (readPrg s.params m a))

/-- `RD.SRAM` (R148). -/
def execRdSram (a : Addr) (s : State) : Out := onRegion .sram a s fun m => reply s (.byte (readSram s.params m a))

/-- `RD.EXP` (R146). -/
def execRdExp (a : Addr) (s : State) : Out := onRegion .exp a s fun _ => reply s (.byte (readOpenBus s.params))

end Sys2Proof.Machine
end

