-- ==== Sys2Proof/Machine/BusWrite.lean ====
section
/-! DEFINITION. The seven writes of format `BUS` (spec/40_bus_access.md R149 to R155): each always completes and returns
nothing (R141). -/

namespace Sys2Proof.Machine

/-- `WR.RAM` (R149). -/
def execWrRam (a : Addr) (d : Byte) (s : State) : Out :=
  onRegion .ram a s fun m => commit s (writeRam s.params m a d) .nothing

/-- `WR.PPU` (R150). -/
def execWrPpu (a : Addr) (d : Byte) (s : State) : Out :=
  onRegion .ppu a s fun m => commit s (writePpu s.params m a d) .nothing

/-- `WR.IOX` (R151). -/
def execWrIox (a : Addr) (_ : Byte) (s : State) : Out :=
  onRegion .iox a s fun m => commit s (writeIox m) .nothing

/-- `WR.APU` (R152). -/
def execWrApu (a : Addr) (d : Byte) (s : State) : Out :=
  onRegion .apu a s fun m => commit s (writeApu s.params m a d) .nothing

/-- `WR.PRG` (R154). -/
def execWrPrg (a : Addr) (d : Byte) (s : State) : Out :=
  onRegion .prg a s fun m => commit s (writePrg m a d) .nothing

/-- `WR.SRAM` (R155). -/
def execWrSram (a : Addr) (d : Byte) (s : State) : Out :=
  onRegion .sram a s fun m => commit s (writeSram s.params m a d) .nothing

/-- `WR.EXP` (R153). -/
def execWrExp (a : Addr) (_ : Byte) (s : State) : Out :=
  onRegion .exp a s fun m => commit s (writeExp m) .nothing

end Sys2Proof.Machine
end

