-- ==== Sys2Proof/Machine/Facade.lean ====
section
/-! DEFINITION. The host commands but `LOAD` and `TICK` (spec/43_facade_scheduler.md R240 to R249). -/

namespace Sys2Proof.Machine

/-- A machine whose collaborators hold their power-on constants and that has no cartridge; the reset procedure gives
everything else its value (R240). -/
def poweredOn {n : Nat} (k : Collaborators n) : Ncore where
  lowmem := []
  ppuregs := []
  apuregs := []
  cart := none
  cpuSteps := 0
  ppuSteps := 0
  apuSteps := 0
  nmiPending := false
  irqLine := false
  cpu := k.cpu.powerOn
  ppu := k.ppu.powerOn
  apu := k.apu.powerOn

/-- `CREATE` (R240): requires `life = ABSENT`. -/
def execCreate (s : State) : Out :=
  match s.life with
  | .absent => commit s (resetProcedure s.params s.chips (poweredOn s.chips)) .nothing
  | .live _ => .refused .notAbsent
  | .dead => .refused .notAbsent

/-- `RESET` (R243). -/
def execReset (s : State) : Out := onLive s fun m => commit s (resetProcedure s.params s.chips m) .nothing

/-- The five cartridge fields of a snapshot. -/
def cartView (c : Cart) : CartView := ⟨c.hdr, c.variant, c.prgBank, c.chrBank⟩

/-- The record `INSPECT` returns (R246). -/
def snapshot (m : Ncore) : Snapshot where
  loaded := m.cart.isSome
  cart := m.cart.map cartView
  cpuSteps := m.cpuSteps
  ppuSteps := m.ppuSteps
  apuSteps := m.apuSteps
  nmiPending := m.nmiPending
  irqLine := m.irqLine
  pc := m.cpu.pc

/-- `INSPECT` (R246). -/
def execInspect (s : State) : Out := onLive s fun m => reply s (.snapshot (snapshot m))

/-- `READMEM` (R248): the read of a CPU transaction. -/
def execReadmem (a : Addr) (s : State) : Out := onLive s fun m => reply s (.byte (memRead s.params m a))

/-- `WRITEMEM` (R249): the write of a CPU transaction, bank-control side effect included. -/
def execWritemem (a : Addr) (d : Byte) (s : State) : Out :=
  onLive s fun m => commit s (memWrite s.params m a d) .nothing

/-- `DESTROY` (R247): `life <- DEAD`; all other state of the machine ceases to exist. -/
def execDestroy (s : State) : Out := onLive s fun _ => .next ((s.setLife .dead).setResult .nothing)

end Sys2Proof.Machine
end

