-- ==== Sys2Proof/Machine/Loader.lean ====
section
/-! DEFINITION. The cartridge image parser and `LOAD` (spec/42_loader.md). -/

namespace Sys2Proof.Machine

/-- The header descriptor of an image (R219; spec/30_encoding.md R111 to R116). -/
def imageHeader (p : Params) (s : List Byte) : Header where
  format := imageFormat p s
  prgBankCount := imageByte s 4
  chrBankCount := imageByte s 5
  hasPrgRam := imageHasPrgRam s
  mapperId := imageMapperId s
  sourceType := .ines

/-- The record that step 8 installs (R222): both bank registers 0, the RAMs filled where they are present. -/
def imageCart (p : Params) (s : List Byte) (v : Variant) : Cart where
  hdr := imageHeader p s
  rom := imageRom s
  vrom := imageVrom s
  variant := v
  prgBank := 0#8
  chrBank := 0#8
  chrRam := if imageByte s 5 = 0#8 then some [] else none
  prgRam := if imageHasPrgRam s then some [] else none

/-- Steps 1 to 7 of R210, in the order the checks are made; the first that fails is the error reported (R221). The result
is a function of the image, `alloc_ok` and the parameters only (R224). -/
def parseImage (p : Params) (s : List Byte) (allocOk : Bool) : Except LoadError Cart :=
  if s.length < 4 ∨ s.take 4 ≠ p.magic.toList then .error (.badMagic p.magic.toList (s.take 4))
  else if s.length < 16 then .error (.truncatedImage 16 s.length)
  else if allocOk = false then .error .outOfMemory
  else if s.length - 16 < imageRomSize s then .error (.truncatedImage (imageRomSize s) (s.length - 16))
  else if s.length - 16 - imageRomSize s < imageVromSize s then
    .error (.truncatedImage (imageVromSize s) (s.length - 16 - imageRomSize s))
  else
    match mapperConstruct p (imageMapperId s) with
    | none => .error (.unsupportedMapper (imageMapperId s))
    | some v => .ok (imageCart p s v)

/-- The numeric codes of the errors (spec/30_encoding.md R107); `OK` is 0. -/
def loadErrorCode : LoadError → Nat
  | .badMagic _ _ => 1
  | .truncatedImage _ _ => 2
  | .unsupportedMapper _ => 3
  | .outOfMemory => 4

/-- `LOAD` (R210): on success the record is replaced whole and nothing else changes (R222); an error ends the operation
with no state changed (R223; spec/60_exceptions.md R280). -/
def execLoad (image : List Byte) (allocOk : Bool) (s : State) : Out :=
  onLive s fun m =>
    match parseImage s.params image allocOk with
    | .ok c => commit s (m.setCart (some c)) .loadOk
    | .error e => reply s (.loadError e)

end Sys2Proof.Machine
end

