-- ==== Sys2Proof/Machine/Scheduler.lean ====
section
/-! DEFINITION. `TICK` and its parts (spec/43_facade_scheduler.md R250 to R254, R260). -/

namespace Sys2Proof.Machine

/-- The state and the outcome of a CPU step, put back into the machine; a break reported by the step is dispatched in the
same slot (R251). -/
def cpuStepOnce (p : Params) {n : Nat} (k : Collaborators n) (m : Ncore) : Ncore :=
  let out := runBus p (k.cpu.step m.cpu) m
  if out.1.2 then dispatch p k .brk (out.2.setCpu out.1.1) else out.2.setCpu out.1.1

/-- What one CPU turn does before it is counted: a pending `NMI`, else an enabled `IRQ`, else a CPU step (R251, R294). -/
def cpuTurn (p : Params) {n : Nat} (k : Collaborators n) (m : Ncore) : Ncore :=
  if m.nmiPending then dispatch p k .nmi (takeNmi m)
  else if m.irqLine && k.cpu.irqEnabled m.cpu then dispatch p k .irq m
  else cpuStepOnce p k m

/-- `CpuSlot` (R251). -/
def cpuSlot (p : Params) {n : Nat} (k : Collaborators n) (m : Ncore) : Ncore := countCpu p (cpuTurn p k m)

/-- `PpuStepOnce` (R253). -/
def ppuStepOnce (p : Params) {n : Nat} (k : Collaborators n) (m : Ncore) : Ncore :=
  let out := runPpu p (k.ppu.step m.ppu) m
  countPpu p (latchNmi out.1.2 (out.2.setPpu out.1.1))

/-- `ApuStepOnce` (R254). -/
def apuStepOnce (p : Params) {n : Nat} (k : Collaborators n) (m : Ncore) : Ncore :=
  let out := runApu p (k.apu.step m.apu) m
  countApu p (driveIrq out.1.2 (out.2.setApu out.1.1))

/-- The format of a tick (R260). -/
def tickFormat (p : Params) (m : Ncore) : Format :=
  match m.cart with
  | none => p.defaultFormat
  | some c => c.hdr.format

/-- The three groups of steps of one tick, for given counts, one after the other (R250). -/
def tickGroups (p : Params) {n : Nat} (k : Collaborators n) (t : TickCounts) (m : Ncore) : Ncore :=
  (apuStepOnce p k)^[t.apu] ((ppuStepOnce p k)^[t.ppu] ((cpuSlot p k)^[t.cpu] m))

/-- One tick (R250): the format is read once, at its start (R260). -/
def tick (p : Params) {n : Nat} (k : Collaborators n) (m : Ncore) : Ncore :=
  tickGroups p k (p.counts (tickFormat p m)) m

/-- `TICK` (R250). -/
def execTick (s : State) : Out := onLive s fun m => commit s (tick s.params s.chips m) .nothing

end Sys2Proof.Machine
end

