-- ==== Sys2Proof/Machine/VideoPort.lean ====
section
/-! DEFINITION. The two operations of format `CHR` (spec/41_mapper.md R190, R191). -/

namespace Sys2Proof.Machine

/-- `CHR.RD` (R190). -/
def execChrRd (v : PatAddr) (s : State) : Out := onLive s fun m => reply s (.byte (chrRead s.params m v))

/-- `CHR.WR` (R191). -/
def execChrWr (v : PatAddr) (d : Byte) (s : State) : Out :=
  onLive s fun m => commit s (chrWrite s.params m v d) .nothing

end Sys2Proof.Machine
end

