-- ==== Sys2Proof/Machine/Dispatch.lean ====
section
/-! DEFINITION. `exec`: one arm for each operation of spec/opcode_table.json. -/

namespace Sys2Proof.Machine

def exec (i : Instr) (s : State) : Host.Outcome State Fault Refusal :=
  match i with
  | .rdRam a => Sys2Proof.Machine.execRdRam a s
  | .rdPpu a => Sys2Proof.Machine.execRdPpu a s
  | .rdIox a => Sys2Proof.Machine.execRdIox a s
  | .rdApu a => Sys2Proof.Machine.execRdApu a s
  | .rdPrg a => Sys2Proof.Machine.execRdPrg a s
  | .rdSram a => Sys2Proof.Machine.execRdSram a s
  | .rdExp a => Sys2Proof.Machine.execRdExp a s
  | .wrRam a d => Sys2Proof.Machine.execWrRam a d s
  | .wrPpu a d => Sys2Proof.Machine.execWrPpu a d s
  | .wrIox a d => Sys2Proof.Machine.execWrIox a d s
  | .wrApu a d => Sys2Proof.Machine.execWrApu a d s
  | .wrPrg a d => Sys2Proof.Machine.execWrPrg a d s
  | .wrSram a d => Sys2Proof.Machine.execWrSram a d s
  | .wrExp a d => Sys2Proof.Machine.execWrExp a d s
  | .chrRd v => Sys2Proof.Machine.execChrRd v s
  | .chrWr v d => Sys2Proof.Machine.execChrWr v d s
  | .create => Sys2Proof.Machine.execCreate s
  | .reset => Sys2Proof.Machine.execReset s
  | .load image allocOk => Sys2Proof.Machine.execLoad image allocOk s
  | .tick => Sys2Proof.Machine.execTick s
  | .inspect => Sys2Proof.Machine.execInspect s
  | .readmem a => Sys2Proof.Machine.execReadmem a s
  | .writemem a d => Sys2Proof.Machine.execWritemem a d s
  | .destroy => Sys2Proof.Machine.execDestroy s

end Sys2Proof.Machine
end

