-- ==== Sys2Proof/Machine/Step.lean ====
section
/-! DEFINITION. One step: take the first waiting request and perform its operation. -/

namespace Sys2Proof.Machine

/-- The first waiting request is performed if the agent whose turn it is holds its port (spec/30_encoding.md R105, log 12). With
no request waiting the block "simply does nothing, and all state survives indefinitely" (spec/60_exceptions.md R303,
log 11). -/
def step (s : State) : Host.Outcome State Fault Refusal :=
  match fetch s.turn s.requests with
  | .idle => .next s
  | .barred p => .refused (.notItsTurn p)
  | .malformed e => .refused (.malformedRequest e)
  | .operation i rest => exec i (s.setRequests rest)

/-- The word `w` of a row of spec/opcode_table.json arrives at its port ahead of every waiting request, in the turn of the
agent that issues that port's words: the host, or a chip whose step is under way (log 6, log 9, log 12). -/
def State.withFetchWord (s : State) (nbits w : Nat) : State :=
  (s.setTurn (issuer (portOfBits nbits))).setRequests (⟨portOfBits nbits, tableBytes (portOfBits nbits) w⟩ :: s.requests)

end Sys2Proof.Machine
end

