-- ==== Sys2Proof/Safety.lean ====
section
/-! DEFINITION. What claims about runs are stated in: the invariant of the state (spec/10_state.md), and a finite sequence
of operations (spec/70_reset_and_hazards.md R330: "A run is the finite sequence of host commands the host chose to
issue"). -/

namespace Sys2Proof.Machine

/-- The invariants of a record: buffer sizes (R26, R27), the variant its id names (R28), presence and size of `chr_ram`
(R31) and `prg_ram` (R32), their canonical form. -/
def Cart.wf (p : Params) (c : Cart) : Bool :=
  decide (c.rom.length = romSize c) && decide (c.vrom.length = vromSize c)
    && decide (mapperConstruct p c.hdr.mapperId = some c.variant)
    && (c.chrRam.isSome == decide (c.hdr.chrBankCount = 0#8)) && (c.prgRam.isSome == c.hdr.hasPrgRam)
    && c.chrRam.all (fun r => Memory.wf p.resetFill r && Memory.below p.chrRamSize r)
    && c.prgRam.all (fun r => Memory.wf p.resetFill r && Memory.below p.prgRamSize r)

/-- The invariants of a live machine: arrays in canonical form and of their sizes (R21, R22, R23), counters of
`P_COUNTER_BITS` bits (R33), a record as above. -/
def Ncore.wf (p : Params) (m : Ncore) : Bool :=
  Memory.wf p.resetFill m.lowmem && Memory.below 0x800 m.lowmem
    && Memory.wf p.resetFill m.ppuregs && Memory.below 8 m.ppuregs
    && Memory.wf p.resetFill m.apuregs && Memory.below 24 m.apuregs
    && decide (m.cpuSteps < 2 ^ p.counterBits) && decide (m.ppuSteps < 2 ^ p.counterBits)
    && decide (m.apuSteps < 2 ^ p.counterBits) && m.cart.all (Cart.wf p)

/-- The invariant of the state: the parameters meet the constraints of spec/00_scope.md R7, and a live machine is as
above. -/
def State.wf (s : State) : Bool :=
  s.params.wf && (match s.life with
    | .live m => Ncore.wf s.params m
    | .absent => true
    | .dead => true)

/-- What a `LOAD` fixes in a record: no other operation writes it (R25 to R28; spec/41_mapper.md R177). -/
def Cart.fixedPart (c : Cart) : Header × List Byte × List Byte × Variant := (c.hdr, c.rom, c.vrom, c.variant)

/-- The pair of bank-select registers (spec/41_mapper.md R189). -/
def Cart.banks (c : Cart) : Byte × Byte := (c.prgBank, c.chrBank)

/-- A sequence of operations, stopping at the first refusal. -/
def execAll : List Instr → State → Out
  | [], s => .next s
  | i :: rest, s =>
    match exec i s with
    | .next s' => execAll rest s'
    | .fault r => .fault r
    | .refused r => .refused r

end Sys2Proof.Machine
end

