-- ==== Sys2Proof/Certificates/Slice0/Obligations.lean ====
section
/-! DEFINITION. The statements for the provers. `R<n>` is a rule of spec/, `D<n>` a decision of
spec/92_eei_decisions.md that the spec marks as its own, `log <n>` a row of notes/assumptions/. -/

open Sys2Proof Sys2Proof.Machine

/-! ### CPU-bus reads -/

/-- R142, whole: the words that decode to `RD.RAM`; on a live machine it returns `lowmem[a & 0x07FF]` and changes nothing. -/
def Obligations.RdRamAnswersLowmemByte : Prop :=
  (∀ w : BitVec 17, decodeBusWord w [] = .ok (.rdRam (busWordAddr w)) ↔ w &&& 0x1E000#17 = 0x00000#17) ∧
  ∀ (s : State) (m : Ncore) (a : Addr), s.life = .live m → a < 0x2000#16 →
    exec (.rdRam a) s =
      .next (s.setResult (.byte (Memory.read s.params.resetFill m.lowmem (a &&& 0x07FF#16).toNat)))

/-- R143, whole: the words that decode to `RD.PPU`; it returns `ppuregs[(a - 0x2000) & 7]` and changes nothing. -/
def Obligations.RdPpuAnswersWindowByte : Prop :=
  (∀ w : BitVec 17, decodeBusWord w [] = .ok (.rdPpu (busWordAddr w)) ↔ w &&& 0x1E000#17 = 0x02000#17) ∧
  ∀ (s : State) (m : Ncore) (a : Addr), s.life = .live m → 0x2000#16 ≤ a → a < 0x4000#16 →
    exec (.rdPpu a) s =
      .next (s.setResult (.byte (Memory.read s.params.resetFill m.ppuregs ((a - 0x2000#16) &&& 0x0007#16).toNat)))

/-- R145, whole: the words that decode to `RD.APU` (its pattern, `RD.IOX` excluded); it returns `apuregs[a - 0x4000]` and
changes nothing; there is no mirroring: 0x4037 is an address of `RD.EXP`. -/
def Obligations.RdApuAnswersWindowByte : Prop :=
  (∀ w : BitVec 17, decodeBusWord w [] = .ok (.rdApu (busWordAddr w)) ↔
    w &&& 0x1FFF8#17 ≠ 0x04018#17 ∧ w &&& 0x1FFE0#17 = 0x04000#17) ∧
  (∀ (s : State) (m : Ncore) (a : Addr), s.life = .live m → 0x4000#16 ≤ a → a < 0x4018#16 →
    exec (.rdApu a) s =
      .next (s.setResult (.byte (Memory.read s.params.resetFill m.apuregs (a - 0x4000#16).toNat)))) ∧
  decodeBusWord 0x04037#17 [] = .ok (.rdExp 0x4037#16)

/-- `RD.IOX` and `RD.EXP` return `P_OPEN_BUS`, whatever was written before, and change nothing. That these places have no
storage is the spec's own decision (D1, D2, D7). -/
def Obligations.RdIoxRdExpAnswerOpenBus : Prop :=
  ∀ (s : State) (m : Ncore) (a : Addr), s.life = .live m →
    (0x4018#16 ≤ a → a < 0x4020#16 → exec (.rdIox a) s = .next (s.setResult (.byte s.params.openBus))) ∧
    (0x4020#16 ≤ a → a < 0x6000#16 → exec (.rdExp a) s = .next (s.setResult (.byte s.params.openBus)))

/-- `RD.PRG` returns one byte and changes nothing: open bus with no cartridge or no program bank, else the byte of
`cart.rom` at the offset the variant gives, which is in bounds. The translation and the open-bus cases are the spec's own
decisions (D5, D6, D9). -/
def Obligations.RdPrgAnswersBankedRom : Prop :=
  ∀ (s : State) (m : Ncore) (a : Addr), s.wf = true → s.life = .live m → 0x8000#16 ≤ a →
    ∃ b : Byte, exec (.rdPrg a) s = .next (s.setResult (.byte b)) ∧
      (m.cart = none → b = s.params.openBus) ∧
      ∀ c : Cart, m.cart = some c →
        (c.hdr.prgBankCount = 0#8 → b = s.params.openBus) ∧
        (c.hdr.prgBankCount ≠ 0#8 →
          (c.variant ≠ .prgsw →
            c.rom[(a &&& 0x7FFF#16).toNat % (0x4000 * c.hdr.prgBankCount.toNat)]? = some b) ∧
          (c.variant = .prgsw → a < 0xC000#16 →
            c.rom[(c.prgBank.toNat % c.hdr.prgBankCount.toNat) * 0x4000 + (a &&& 0x3FFF#16).toNat]? = some b) ∧
          (c.variant = .prgsw → 0xC000#16 ≤ a →
            c.rom[(c.hdr.prgBankCount.toNat - 1) * 0x4000 + (a &&& 0x3FFF#16).toNat]? = some b))

/-- `RD.SRAM` returns one byte and changes nothing: open bus without save RAM, else the byte of `cart.prg_ram`. Window and
size are the spec's own decisions (D7, D8). -/
def Obligations.RdSramAnswersSaveRam : Prop :=
  ∀ (s : State) (m : Ncore) (a : Addr), s.wf = true → s.life = .live m → 0x6000#16 ≤ a → a < 0x8000#16 →
    ∃ b : Byte, exec (.rdSram a) s = .next (s.setResult (.byte b)) ∧
      (m.cart = none → b = s.params.openBus) ∧
      ∀ c : Cart, m.cart = some c →
        (c.hdr.hasPrgRam = false → b = s.params.openBus) ∧
        (c.hdr.hasPrgRam = true → ∃ ram, c.prgRam = some ram ∧
          b = Memory.read s.params.resetFill ram ((a - 0x6000#16).toNat % s.params.prgRamSize))

/-! ### CPU-bus writes -/

/-- R149, whole: the words that decode to `WR.RAM`; it stores `d` in `lowmem[a & 0x07FF]`, writes no other element and
nothing else. -/
def Obligations.WrRamStoresOneByte : Prop :=
  (∀ (w : BitVec 17) (d : Byte),
    decodeBusWord w [d] = .ok (.wrRam (busWordAddr w) d) ↔ w &&& 0x1E000#17 = 0x10000#17) ∧
  ∀ (s : State) (m : Ncore) (a : Addr) (d : Byte), s.wf = true → s.life = .live m → a < 0x2000#16 →
    ∃ mem, exec (.wrRam a d) s = .next ((s.setLife (.live (m.setLowmem mem))).setResult .nothing) ∧
      ∀ i, Memory.read s.params.resetFill mem i =
        if i = (a &&& 0x07FF#16).toNat then d else Memory.read s.params.resetFill m.lowmem i

/-- R150, whole: the words that decode to `WR.PPU`; it stores `d` in `ppuregs[(a - 0x2000) & 7]`, writes no other element
and nothing else (the video chip's state among it); the video chip's next read of that register sees `d`. -/
def Obligations.WrPpuStoresOneByte : Prop :=
  (∀ (w : BitVec 17) (d : Byte),
    decodeBusWord w [d] = .ok (.wrPpu (busWordAddr w) d) ↔ w &&& 0x1E000#17 = 0x12000#17) ∧
  ∀ (s : State) (m : Ncore) (a : Addr) (d : Byte), s.wf = true → s.life = .live m → 0x2000#16 ≤ a → a < 0x4000#16 →
    ∃ mem, exec (.wrPpu a d) s = .next ((s.setLife (.live (m.setPpuregs mem))).setResult .nothing) ∧
      (∀ i, Memory.read s.params.resetFill mem i =
        if i = ((a - 0x2000#16) &&& 0x0007#16).toNat then d else Memory.read s.params.resetFill m.ppuregs i) ∧
      ∀ (R : Type) (n : Nat) (i : Fin 8) (k : Byte → PpuProg R n), i.val = ((a - 0x2000#16) &&& 0x0007#16).toNat →
        runPpu s.params (.regRead i k) (m.setPpuregs mem) = runPpu s.params (k d) (m.setPpuregs mem)

/-- R152, whole: the words that decode to `WR.APU` (its pattern, `WR.IOX` excluded); it stores `d` in `apuregs[a - 0x4000]`,
writes no other element and nothing else. -/
def Obligations.WrApuStoresOneByte : Prop :=
  (∀ (w : BitVec 17) (d : Byte), decodeBusWord w [d] = .ok (.wrApu (busWordAddr w) d) ↔
    w &&& 0x1FFF8#17 ≠ 0x14018#17 ∧ w &&& 0x1FFE0#17 = 0x14000#17) ∧
  ∀ (s : State) (m : Ncore) (a : Addr) (d : Byte), s.wf = true → s.life = .live m → 0x4000#16 ≤ a → a < 0x4018#16 →
    ∃ mem, exec (.wrApu a d) s = .next ((s.setLife (.live (m.setApuregs mem))).setResult .nothing) ∧
      ∀ i, Memory.read s.params.resetFill mem i =
        if i = (a - 0x4000#16).toNat then d else Memory.read s.params.resetFill m.apuregs i

/-- `WR.IOX` and `WR.EXP` complete and change nothing of the machine. The spec's own decision (D1, D2, D7). -/
def Obligations.WrIoxWrExpChangeNothing : Prop :=
  ∀ (s : State) (m : Ncore) (a : Addr) (d : Byte), s.life = .live m →
    (0x4018#16 ≤ a → a < 0x4020#16 → exec (.wrIox a d) s = .next (s.setResult .nothing)) ∧
    (0x4020#16 ≤ a → a < 0x6000#16 → exec (.wrExp a d) s = .next (s.setResult .nothing))

/-- `WR.PRG` stores nothing: without a cartridge and in variant `FIXED` the machine is unchanged; in `PRGSW` it sets
`cart.prg_bank`, in `CHRSW` `cart.chr_bank`, to all eight bits written. The registers are the spec's own decision (D6, D10,
D11). -/
def Obligations.WrPrgSwitchesBankOnly : Prop :=
  ∀ (s : State) (m : Ncore) (a : Addr) (d : Byte), s.life = .live m → 0x8000#16 ≤ a →
    (m.cart = none → exec (.wrPrg a d) s = .next (s.setResult .nothing)) ∧
    ∀ c : Cart, m.cart = some c →
      (c.variant = .fixed → exec (.wrPrg a d) s = .next (s.setResult .nothing)) ∧
      (c.variant = .prgsw → exec (.wrPrg a d) s =
        .next ((s.setLife (.live (m.setCart (some (c.setPrgBank d))))).setResult .nothing)) ∧
      (c.variant = .chrsw → exec (.wrPrg a d) s =
        .next ((s.setLife (.live (m.setCart (some (c.setChrBank d))))).setResult .nothing))

/-- `WR.SRAM` stores `d` in one element of `cart.prg_ram` where there is save RAM and writes nothing else; without save RAM
the machine is unchanged. Window and size are the spec's own decisions (D7, D8). -/
def Obligations.WrSramStoresOneByte : Prop :=
  ∀ (s : State) (m : Ncore) (a : Addr) (d : Byte), s.wf = true → s.life = .live m → 0x6000#16 ≤ a → a < 0x8000#16 →
    (m.cart = none → exec (.wrSram a d) s = .next (s.setResult .nothing)) ∧
    ∀ c : Cart, m.cart = some c →
      (c.hdr.hasPrgRam = false → exec (.wrSram a d) s = .next (s.setResult .nothing)) ∧
      (c.hdr.hasPrgRam = true → ∃ ram ram', c.prgRam = some ram ∧
        exec (.wrSram a d) s =
          .next ((s.setLife (.live (m.setCart (some (c.setPrgRam (some ram')))))).setResult .nothing) ∧
        ∀ i, Memory.read s.params.resetFill ram' i =
          if i = (a - 0x6000#16).toNat % s.params.prgRamSize then d else Memory.read s.params.resetFill ram i)

/-! ### The video port -/

/-- `CHR.RD` returns one byte and changes nothing: open bus with no cartridge; with no graphics bank the byte of
`cart.chr_ram`; else the byte of `cart.vrom` at an offset in bounds. The port and the variants are the spec's own decisions
(D5, D6, D9, D12). -/
def Obligations.ChrRdAnswersPatternByte : Prop :=
  ∀ (s : State) (m : Ncore) (v : PatAddr), s.wf = true → s.life = .live m →
    ∃ b : Byte, exec (.chrRd v) s = .next (s.setResult (.byte b)) ∧
      (m.cart = none → b = s.params.openBus) ∧
      ∀ c : Cart, m.cart = some c →
        (c.hdr.chrBankCount = 0#8 → ∃ ram, c.chrRam = some ram ∧
          b = Memory.read s.params.resetFill ram (v.toNat % s.params.chrRamSize)) ∧
        (c.hdr.chrBankCount ≠ 0#8 → c.variant ≠ .chrsw → c.vrom[v.toNat]? = some b) ∧
        (c.hdr.chrBankCount ≠ 0#8 → c.variant = .chrsw →
          c.vrom[(c.chrBank.toNat % c.hdr.chrBankCount.toNat) * 0x2000 + v.toNat]? = some b)

/-- `CHR.WR` stores `d` in one element of `cart.chr_ram` where the record has no graphics bank and writes nothing else;
otherwise the machine is unchanged. The spec's own decisions (D11, D12). -/
def Obligations.ChrWrStoresInChrRamOnly : Prop :=
  ∀ (s : State) (m : Ncore) (v : PatAddr) (d : Byte), s.wf = true → s.life = .live m →
    (m.cart = none → exec (.chrWr v d) s = .next (s.setResult .nothing)) ∧
    ∀ c : Cart, m.cart = some c →
      (c.hdr.chrBankCount ≠ 0#8 → exec (.chrWr v d) s = .next (s.setResult .nothing)) ∧
      (c.hdr.chrBankCount = 0#8 → ∃ ram ram', c.chrRam = some ram ∧
        exec (.chrWr v d) s =
          .next ((s.setLife (.live (m.setCart (some (c.setChrRam (some ram')))))).setResult .nothing) ∧
        ∀ i, Memory.read s.params.resetFill ram' i =
          if i = v.toNat % s.params.chrRamSize then d else Memory.read s.params.resetFill ram i)

/-! ### Host commands -/

/-- `CREATE` on an absent machine gives the `CREATE` column of R44: every byte of the arrays `P_RESET_FILL`, no cartridge,
counters and flags 0, the collaborators reset from power-on, `pc = P_OPEN_BUS || P_OPEN_BUS`. The values are the spec's own
decisions (D3, D4). -/
def Obligations.CreateGivesFreshMachine : Prop :=
  ∀ s : State, s.life = .absent →
    ∃ m : Ncore, exec .create s = .next ((s.setLife (.live m)).setResult .nothing) ∧
      (∀ i, Memory.read s.params.resetFill m.lowmem i = s.params.resetFill) ∧
      (∀ i, Memory.read s.params.resetFill m.ppuregs i = s.params.resetFill) ∧
      (∀ i, Memory.read s.params.resetFill m.apuregs i = s.params.resetFill) ∧
      m.cart = none ∧ m.cpuSteps = 0 ∧ m.ppuSteps = 0 ∧ m.apuSteps = 0 ∧ m.nmiPending = false ∧ m.irqLine = false ∧
      m.cpu = (s.chips.cpu.reset s.chips.cpu.powerOn).setPc (s.params.openBus ++ s.params.openBus) ∧
      m.ppu = s.chips.ppu.reset s.chips.ppu.powerOn ∧ m.apu = s.chips.apu.reset s.chips.apu.powerOn

/-- `RESET` gives the `RESET` column of R44: the arrays filled, the bank registers of a loaded record 0 and the rest of the
record unchanged, counters and flags 0, the collaborators reset. The values are the spec's own decisions (D3, D21). -/
def Obligations.ResetReinitialises : Prop :=
  ∀ (s : State) (m : Ncore), s.life = .live m →
    ∃ m' : Ncore, exec .reset s = .next ((s.setLife (.live m')).setResult .nothing) ∧
      (∀ i, Memory.read s.params.resetFill m'.lowmem i = s.params.resetFill) ∧
      (∀ i, Memory.read s.params.resetFill m'.ppuregs i = s.params.resetFill) ∧
      (∀ i, Memory.read s.params.resetFill m'.apuregs i = s.params.resetFill) ∧
      m'.cart = m.cart.map (fun c => (c.setPrgBank 0#8).setChrBank 0#8) ∧
      m'.cpuSteps = 0 ∧ m'.ppuSteps = 0 ∧ m'.apuSteps = 0 ∧ m'.nmiPending = false ∧ m'.irqLine = false ∧
      m'.cpu = (s.chips.cpu.reset m.cpu).setPc m'.cpu.pc ∧
      m'.ppu = s.chips.ppu.reset m.ppu ∧ m'.apu = s.chips.apu.reset m.apu

/-- After `RESET` the `pc` is the vector at 0xFFFC, low byte there and high byte at 0xFFFD (the byte order of a vector is the
spec's own decision, D26), as read through the mapper of the reset machine, whose bank registers are 0 (D21); both interrupt
flags are 0; no `CpuEnter` runs: the CPU collaborator's state is its reset state with that `pc` alone put in (D25), and nothing
is saved in RAM. -/
def Obligations.ResetEntersAtResetVector : Prop :=
  ∀ (s : State) (m : Ncore), s.life = .live m →
    ∃ m' : Ncore, exec .reset s = .next ((s.setLife (.live m')).setResult .nothing) ∧
      m'.cpu.pc = memRead s.params m' 0xFFFD#16 ++ memRead s.params m' 0xFFFC#16 ∧
      m'.cpu = (s.chips.cpu.reset m.cpu).setPc (memRead s.params m' 0xFFFD#16 ++ memRead s.params m' 0xFFFC#16) ∧
      (∀ i, Memory.read s.params.resetFill m'.lowmem i = s.params.resetFill) ∧
      (∀ c, m'.cart = some c → c.prgBank = 0#8 ∧ c.chrBank = 0#8) ∧
      m'.nmiPending = false ∧ m'.irqLine = false

/-- R244, whole: `RESET` completes, and a second `RESET` leaves the state the first one left, for every collaborator that
meets its obligations. -/
def Obligations.ResetTwiceIsResetOnce : Prop :=
  ∀ (s : State) (m : Ncore), s.life = .live m → ∃ t, exec .reset s = .next t ∧ exec .reset t = .next t

/-- `LOAD` reports the first check that fails, in the order magic, header length, allocation, program ROM, graphics ROM,
mapper, with its payload, and changes nothing. The order and the short-stream cases are the spec's own decisions (D17, D18,
D19); that `alloc_ok` is an operand is the model's (log 8). -/
def Obligations.LoadReportsFirstFailedCheck : Prop :=
  ∀ (s : State) (m : Ncore) (img : List Byte) (ok : Bool), s.life = .live m →
    ((img.length < 4 ∨ img.take 4 ≠ s.params.magic.toList) →
      exec (.load img ok) s = .next (s.setResult (.loadError (.badMagic s.params.magic.toList (img.take 4))))) ∧
    (4 ≤ img.length → img.take 4 = s.params.magic.toList →
      (img.length < 16 →
        exec (.load img ok) s = .next (s.setResult (.loadError (.truncatedImage 16 img.length)))) ∧
      (16 ≤ img.length → ok = false → exec (.load img ok) s = .next (s.setResult (.loadError .outOfMemory))) ∧
      (16 ≤ img.length → ok = true →
        (img.length - 16 < 0x4000 * (img.getD 4 0#8).toNat →
          exec (.load img ok) s = .next (s.setResult (.loadError
            (.truncatedImage (0x4000 * (img.getD 4 0#8).toNat) (img.length - 16))))) ∧
        (0x4000 * (img.getD 4 0#8).toNat ≤ img.length - 16 →
          img.length - 16 - 0x4000 * (img.getD 4 0#8).toNat < 0x2000 * (img.getD 5 0#8).toNat →
          exec (.load img ok) s = .next (s.setResult (.loadError
            (.truncatedImage (0x2000 * (img.getD 5 0#8).toNat)
              (img.length - 16 - 0x4000 * (img.getD 4 0#8).toNat))))) ∧
        (16 + 0x4000 * (img.getD 4 0#8).toNat + 0x2000 * (img.getD 5 0#8).toNat ≤ img.length →
          s.params.variants.lookup ((img.getD 7 0#8 &&& 0xF0#8) ||| (img.getD 6 0#8 >>> 4)) = none →
          exec (.load img ok) s = .next (s.setResult (.loadError
            (.unsupportedMapper ((img.getD 7 0#8 &&& 0xF0#8) ||| (img.getD 6 0#8 >>> 4))))))))

/-- `LOAD` of a whole image of a supported mapper installs the record of R222 and changes nothing else. That `LOAD` leaves
the rest alone, the RAM fill and the reset values of the bank registers are the spec's own decisions (D8, D10, D14, D15,
D20). -/
def Obligations.LoadInstallsRecord : Prop :=
  ∀ (s : State) (m : Ncore) (img : List Byte) (variant : Variant), s.life = .live m →
    img.take 4 = s.params.magic.toList →
    16 + 0x4000 * (img.getD 4 0#8).toNat + 0x2000 * (img.getD 5 0#8).toNat ≤ img.length →
    s.params.variants.lookup ((img.getD 7 0#8 &&& 0xF0#8) ||| (img.getD 6 0#8 >>> 4)) = some variant →
    exec (.load img true) s = .next ((s.setLife (.live (m.setCart (some
      { hdr :=
          { format := if img.getD 9 0#8 = 0#8 then s.params.regionZero else otherFormat s.params.regionZero
            prgBankCount := img.getD 4 0#8
            chrBankCount := img.getD 5 0#8
            hasPrgRam := img.getD 8 0#8 != 0#8
            mapperId := (img.getD 7 0#8 &&& 0xF0#8) ||| (img.getD 6 0#8 >>> 4)
            sourceType := .ines }
        rom := (img.drop 16).take (0x4000 * (img.getD 4 0#8).toNat)
        vrom := (img.drop (16 + 0x4000 * (img.getD 4 0#8).toNat)).take (0x2000 * (img.getD 5 0#8).toNat)
        variant := variant
        prgBank := 0#8
        chrBank := 0#8
        chrRam := if img.getD 5 0#8 = 0#8 then some [] else none
        prgRam := if img.getD 8 0#8 = 0#8 then none else some [] })))).setResult .loadOk)

/-- R111, R112, R113 and R118, whole: after a `LOAD` that returns `OK` the counts are `s[4]` and `s[5]`, the sizes of `rom`
and `vrom` are the counts times 16 KiB and 8 KiB, the image is at least that long, and every byte of `rom` and `vrom` is the
byte of the stream at its offset. -/
def Obligations.LoadCopiesPayload : Prop :=
  ∀ (s t : State) (img : List Byte) (ok : Bool), exec (.load img ok) s = .next t → t.result = .loadOk →
    ∃ (m : Ncore) (c : Cart), t.life = .live m ∧ m.cart = some c ∧
      some c.hdr.prgBankCount = img[4]? ∧ some c.hdr.chrBankCount = img[5]? ∧
      c.rom.length = 0x4000 * c.hdr.prgBankCount.toNat ∧ c.vrom.length = 0x2000 * c.hdr.chrBankCount.toNat ∧
      16 + c.rom.length + c.vrom.length ≤ img.length ∧
      (∀ i, i < c.rom.length → c.rom[i]? = img[16 + i]?) ∧
      (∀ j, j < c.vrom.length → c.vrom[j]? = img[16 + c.rom.length + j]?)

/-- The bits and bytes of an image that the loader ignores: images of one length that agree outside offsets 10 to 15 and the
low nibbles of offsets 6 and 7 load alike, and bytes after the payload of an image that loads change nothing. The spec's own
decision (D16). -/
def Obligations.LoadIgnoresReservedBits : Prop :=
  ∀ (s : State) (m : Ncore) (img : List Byte) (ok : Bool), s.life = .live m →
    (∀ img' : List Byte, img'.length = img.length →
      (∀ k, k ≠ 6 → k ≠ 7 → (k < 10 ∨ 16 ≤ k) → img'[k]? = img[k]?) →
      img'.getD 6 0#8 >>> 4 = img.getD 6 0#8 >>> 4 → img'.getD 7 0#8 &&& 0xF0#8 = img.getD 7 0#8 &&& 0xF0#8 →
      exec (.load img' ok) s = exec (.load img ok) s) ∧
    (∀ (t : State) (extra : List Byte), exec (.load img ok) s = .next t → t.result = .loadOk →
      exec (.load (img ++ extra) ok) s = exec (.load img ok) s)

/-- R224, whole: the result of `LOAD`, and on success the record, is a function of the image, `alloc_ok` and the parameters
only: two live machines with the same parameters answer alike. -/
def Obligations.LoadIndependentOfState : Prop :=
  ∀ (s₁ s₂ : State) (m₁ m₂ : Ncore) (img : List Byte) (ok : Bool), s₁.life = .live m₁ → s₂.life = .live m₂ →
    s₁.params = s₂.params →
    (∃ e, exec (.load img ok) s₁ = .next (s₁.setResult (.loadError e)) ∧
          exec (.load img ok) s₂ = .next (s₂.setResult (.loadError e))) ∨
    (∃ c, exec (.load img ok) s₁ = .next ((s₁.setLife (.live (m₁.setCart (some c)))).setResult .loadOk) ∧
          exec (.load img ok) s₂ = .next ((s₂.setLife (.live (m₂.setCart (some c)))).setResult .loadOk))

/-- R280, whole: only `LOAD` raises; an error is the operation's result and changes no state; the machine stays live; there
are exactly four errors. A `TruncatedImage` has `actual < expected`. -/
def Obligations.LoadErrorChangesNothing : Prop :=
  ∀ (i : Instr) (s t : State) (e : LoadError), exec i s = .next t → t.result = .loadError e →
    (∃ img ok, i = .load img ok) ∧ t = s.setResult (.loadError e) ∧ (∃ m, t.life = .live m) ∧
    ((∃ found, e = .badMagic s.params.magic.toList found) ∨
      (∃ expected actual, e = .truncatedImage expected actual ∧ actual < expected) ∨
      (∃ id, e = .unsupportedMapper id) ∨ e = .outOfMemory)

/-- `INSPECT` returns the snapshot and changes nothing. The field list is the spec's own decision (D30). -/
def Obligations.InspectAnswersSnapshot : Prop :=
  ∀ (s : State) (m : Ncore), s.life = .live m →
    exec .inspect s = .next (s.setResult (.snapshot
      { loaded := m.cart.isSome
        cart := m.cart.map fun c =>
          { hdr := c.hdr, variant := c.variant, prgBank := c.prgBank, chrBank := c.chrBank }
        cpuSteps := m.cpuSteps, ppuSteps := m.ppuSteps, apuSteps := m.apuSteps
        nmiPending := m.nmiPending, irqLine := m.irqLine, pc := m.cpu.pc }))

/-- `DESTROY` ends the machine: `life = DEAD`, no other state of the machine exists, and every operation is refused
afterwards, `CREATE` included. The spec's own decision (D31). -/
def Obligations.DestroyEndsMachine : Prop :=
  ∀ (s : State) (m : Ncore), s.life = .live m →
    exec .destroy s = .next ((s.setLife .dead).setResult .nothing) ∧
    ∀ i : Instr, exec i ((s.setLife .dead).setResult .nothing) =
      .refused (if i = .create then .notAbsent else .notLive)

/-- `READMEM` performs the one read operation of its address's region, returns its byte and changes nothing. The spec's own
decision (D33). -/
def Obligations.ReadmemIsTheBusRead : Prop :=
  ∀ (s : State) (m : Ncore) (a : Addr), s.life = .live m →
    exec (.readmem a) s = exec (readOp (regionOf a) a) s ∧
    exec (.readmem a) s = .next (s.setResult (.byte (memRead s.params m a)))

/-- `WRITEMEM` performs the one write operation of its address's region, bank-control side effect included, and returns
nothing. The spec's own decision (D33). -/
def Obligations.WritememIsTheBusWrite : Prop :=
  ∀ (s : State) (m : Ncore) (a : Addr) (d : Byte), s.life = .live m →
    exec (.writemem a d) s = exec (writeOp (regionOf a) a d) s ∧
    exec (.writemem a d) s = .next ((s.setLife (.live (memWrite s.params m a d))).setResult .nothing)

/-- `TICK` completes: all CPU slots, then all video steps, then all audio steps, their counts those of the cartridge's
format, or of `P_DEFAULT_FORMAT` with no cartridge. Order and counts are the spec's own decisions (D5, D22). -/
def Obligations.TickRunsThreeGroups : Prop :=
  ∀ (s : State) (m : Ncore) (t : TickCounts), s.life = .live m →
    (m.cart = none → t = s.params.counts s.params.defaultFormat) →
    (∀ c, m.cart = some c → t = s.params.counts c.hdr.format) →
    exec .tick s = .next ((s.setLife (.live ((apuStepOnce s.params s.chips)^[t.apu]
      ((ppuStepOnce s.params s.chips)^[t.ppu] ((cpuSlot s.params s.chips)^[t.cpu] m))))).setResult .nothing)

/-! ### The valid domain, the step, decoding -/

/-- Every operation but `CREATE` is refused on a machine that is not live; `CREATE` is refused on one that is not absent. The
spec's own decision (D31). -/
def Obligations.OutsideLifeRefused : Prop :=
  (∀ (i : Instr) (s : State), i ≠ .create → (s.life = .absent ∨ s.life = .dead) → exec i s = .refused .notLive) ∧
  (∀ s : State, ((∃ m, s.life = .live m) ∨ s.life = .dead) → exec .create s = .refused .notAbsent)

/-- The model's choice (log 13): a `BUS` operation with an address of another region is refused; `step` never meets one,
since the decoder gives well-formed operations only. -/
def Obligations.AddressOutsideRegionRefused : Prop :=
  ∀ (s : State) (m : Ncore) (r : Region) (a : Addr) (d : Byte), s.life = .live m → regionOf a ≠ r →
    exec (readOp r a) s = .refused .addressOutsideRegion ∧ exec (writeOp r a d) s = .refused .addressOutsideRegion

/-- In the turn of an agent that holds its port, a step takes the first waiting request and runs the operation it decodes to,
on the state without that request; a table word placed by `withFetchWord` is such a request, in the turn of the host for a
`HOST` word, of the CPU for a `BUS` word, of the video chip for a `CHR` word. The queue and the turn are the model's choice
(log 6, log 9, log 12). -/
def Obligations.StepRunsDecodedRequest : Prop :=
  (∀ (s : State) (q : Request) (rest : List Request) (i : Instr), s.requests = q :: rest →
    ((q.port = .host ∧ s.turn = .host) ∨ (q.port = .bus ∧ (s.turn = .cpu ∨ s.turn = .block)) ∨
      (q.port = .chr ∧ s.turn = .ppu)) →
    decode q.port q.bytes = .ok i → step s = exec i (s.setRequests rest)) ∧
  (∀ (s : State) (nbits w : Nat) (i : Instr), decodeTableWord nbits w = some i →
    (i.port = .host → step (s.withFetchWord nbits w) = exec i (s.setTurn .host)) ∧
    (i.port = .bus → step (s.withFetchWord nbits w) = exec i (s.setTurn .cpu)) ∧
    (i.port = .chr → step (s.withFetchWord nbits w) = exec i (s.setTurn .ppu)))

/-- With no request waiting a step changes nothing; bytes that are no word of their port, at a port that the agent in turn
holds, are refused by name. The model's choices (log 11, log 14), the first read from R303. -/
def Obligations.StepIdlesOrNamesMalformed : Prop :=
  (∀ s : State, s.requests = [] → step s = .next s) ∧
  (∀ (s : State) (q : Request) (rest : List Request) (e : DecodeError), s.requests = q :: rest →
    ((q.port = .host ∧ s.turn = .host) ∨ (q.port = .bus ∧ (s.turn = .cpu ∨ s.turn = .block)) ∨
      (q.port = .chr ∧ s.turn = .ppu)) →
    decode q.port q.bytes = .error e → step s = .refused (.malformedRequest e))

/-- Words written out from the spec's encodings (R101 to R104; spec/95_test_vectors.md section 3) decode to the operations
they stand for, the eight `HOST` codes among them. The byte order of a request and the byte of `alloc_ok` are the model's
choices (log 7, log 8). -/
def Obligations.SpecWordsDecode : Prop :=
  decode .bus [0xFF#8, 0x07#8, 0x00#8] = .ok (.rdRam 0x07FF#16) ∧
  decode .bus [0x08#8, 0x20#8, 0x01#8, 0x5A#8] = .ok (.wrPpu 0x2008#16 0x5A#8) ∧
  decode .bus [0x17#8, 0x40#8, 0x00#8] = .ok (.rdApu 0x4017#16) ∧
  decode .bus [0x18#8, 0x40#8, 0x01#8, 0xFF#8] = .ok (.wrIox 0x4018#16 0xFF#8) ∧
  decode .bus [0x20#8, 0x40#8, 0x00#8] = .ok (.rdExp 0x4020#16) ∧
  decode .bus [0x00#8, 0x60#8, 0x00#8] = .ok (.rdSram 0x6000#16) ∧
  decode .bus [0xFF#8, 0xFF#8, 0x01#8, 0x03#8] = .ok (.wrPrg 0xFFFF#16 0x03#8) ∧
  decode .chr [0x10#8, 0x00#8] = .ok (.chrRd 0x0010#13) ∧
  decode .chr [0xFF#8, 0x3F#8, 0x3C#8] = .ok (.chrWr 0x1FFF#13 0x3C#8) ∧
  decode .host [0x00#8] = .ok .create ∧ decode .host [0x01#8] = .ok .reset ∧
  decode .host [0x02#8, 0x01#8, 0x4E#8, 0x45#8] = .ok (.load [0x4E#8, 0x45#8] true) ∧
  decode .host [0x03#8] = .ok .tick ∧ decode .host [0x04#8] = .ok .inspect ∧
  decode .host [0x05#8, 0x01#8, 0x08#8] = .ok (.readmem 0x0801#16) ∧
  decode .host [0x06#8, 0x01#8, 0x00#8, 0xAB#8] = .ok (.writemem 0x0001#16 0xAB#8) ∧
  decode .host [0x07#8] = .ok .destroy

/-- The patterns of R102, tested in priority order, select for every 17-bit word the read or write operation (`rw`, bit 16)
of the region that the ranges of R62 and R67 give its address. A consequence the spec states of its own tables. -/
def Obligations.PatternsAgreeWithRanges : Prop :=
  ∀ w : BitVec 17, ∃ r, busRow w = some r ∧ r.region = regionOf (busWordAddr w) ∧ r.write = w.getLsbD 16

/-- Decoding what the encoder writes gives back the operation, for every well-formed operation of every family with every
operand. The byte layout is the model's choice (log 7, log 8). -/
def Obligations.DecodeEncodeRoundTrip : Prop :=
  ∀ i : Instr, i.wellFormed = true → decode i.port (encode i) = .ok i

/-- The decoder accepts encodings only: whatever it reads is a well-formed operation of the port, and the bytes are that
operation's encoding, so no two requests stand for one operation. The byte layout is the model's choice (log 7, log 8). -/
def Obligations.DecodeAcceptsOnlyEncodings : Prop :=
  ∀ (port : Port) (bytes : List Byte) (i : Instr), decode port bytes = .ok i →
    i.wellFormed = true ∧ i.port = port ∧ encode i = bytes

/-! ### The address space -/

/-- R63, R64 and R65, whole: what the three windows decode to, that each index is inside its array, their aliases, that no
address of the audio window has one, and that addresses that decode alike read and write one byte. -/
def Obligations.MirrorsAliasOneByte : Prop :=
  (∀ a : Addr, a < 0x2000#16 →
    decodeAddr a = .ram (a &&& 0x07FF#16).toNat ∧ (a &&& 0x07FF#16).toNat < 0x800) ∧
  (∀ i k : Nat, i < 0x800 → k < 4 → decodeAddr (BitVec.ofNat 16 (i + 0x800 * k)) = .ram i) ∧
  (∀ a : Addr, 0x2000#16 ≤ a → a < 0x4000#16 →
    decodeAddr a = .ppu ((a - 0x2000#16) &&& 0x0007#16).toNat ∧
    ((a - 0x2000#16) &&& 0x0007#16).toNat = (a &&& 0x0007#16).toNat ∧ (a &&& 0x0007#16).toNat < 8) ∧
  (∀ i k : Nat, i < 8 → k < 0x400 → decodeAddr (BitVec.ofNat 16 (0x2000 + i + 8 * k)) = .ppu i) ∧
  (∀ a : Addr, 0x4000#16 ≤ a → a < 0x4018#16 →
    decodeAddr a = .apu (a - 0x4000#16).toNat ∧ (a - 0x4000#16).toNat < 24 ∧
    ∀ b : Addr, decodeAddr b = decodeAddr a → b = a) ∧
  (∀ (p : Params) (m : Ncore) (a b : Addr) (d : Byte), decodeAddr a = decodeAddr b →
    memRead p m a = memRead p m b ∧ memWrite p m a d = memWrite p m b d)

/-- A write where there is storage is read back, at the same address, at once (R156 (i), a law the spec derives). -/
def Obligations.ReadAfterWriteAnswersValue : Prop :=
  ∀ (s : State) (m : Ncore) (a : Addr) (d : Byte), s.wf = true → s.life = .live m →
    (regionOf a = .ram ∨ regionOf a = .ppu ∨ regionOf a = .apu ∨
      (regionOf a = .sram ∧ ∃ c, m.cart = some c ∧ c.hdr.hasPrgRam = true)) →
    ∃ t, exec (.writemem a d) s = .next t ∧ exec (.readmem a) t = .next (t.setResult (.byte d))

/-- A write changes a later read only at an address of the same region and index, or, for a write to program-ROM addresses,
at program-ROM addresses of a `PRGSW` cartridge below 0xC000 (R156 (iii), R192 (iv), laws the spec derives; R181, D6). -/
def Obligations.WriteChangesOnlyAliases : Prop :=
  ∀ (s : State) (m : Ncore) (a b : Addr) (d : Byte), s.wf = true → s.life = .live m →
    (regionOf a ≠ regionOf b ∨
      (regionOf a = .ram ∧ ramIndex a ≠ ramIndex b) ∨ (regionOf a = .ppu ∧ ppuIndex a ≠ ppuIndex b) ∨
      (regionOf a = .apu ∧ apuIndex a ≠ apuIndex b) ∨
      (regionOf a = .sram ∧ sramIndex s.params a ≠ sramIndex s.params b) ∨
      regionOf a = .iox ∨ regionOf a = .exp ∨
      (regionOf a = .prg ∧ (m.cart = none ∨ 0xC000#16 ≤ b ∨ ∃ c, m.cart = some c ∧ c.variant ≠ .prgsw))) →
    ∃ t, exec (.writemem a d) s = .next t ∧
      exec (.readmem b) t = .next (t.setResult (.byte (memRead s.params m b)))

/-- R173, whole: for every variant, state and address, `translate_prg` stays below `rom_size` where that is not 0, and
`translate_chr` below the size of `ChrBuf` (its RAM size, where it is RAM, not 0; log 19). -/
def Obligations.TranslationStaysInBounds : Prop :=
  (∀ (c : Cart) (a : Addr), 0 < 0x4000 * c.hdr.prgBankCount.toNat →
    translatePrg c a < 0x4000 * c.hdr.prgBankCount.toNat) ∧
  (∀ (p : Params) (c : Cart) (v : PatAddr), 0 < p.chrRamSize →
    translateChr p c v < if c.hdr.chrBankCount = 0#8 then p.chrRamSize else 0x2000 * c.hdr.chrBankCount.toNat)

/-- With no graphics bank a byte written through the video port is read back there, and still after a `RESET` between the two
(R192 (i), a law the spec derives). -/
def Obligations.ChrRamPersistsAcrossReset : Prop :=
  ∀ (s : State) (m : Ncore) (c : Cart) (v : PatAddr) (d : Byte), s.wf = true → s.life = .live m → m.cart = some c →
    c.hdr.chrBankCount = 0#8 →
    ∃ t u, exec (.chrWr v d) s = .next t ∧ exec (.chrRd v) t = .next (t.setResult (.byte d)) ∧
      exec .reset t = .next u ∧ exec (.chrRd v) u = .next (u.setResult (.byte d))

/-- No video-port write changes the result of any CPU-bus read (R192 (iii), a law the spec derives). -/
def Obligations.VideoWritesInvisibleOnBus : Prop :=
  ∀ (s : State) (m : Ncore) (v : PatAddr) (d : Byte) (a : Addr), s.life = .live m →
    ∃ t b, exec (.chrWr v d) s = .next t ∧ exec (.readmem a) s = .next (s.setResult (.byte b)) ∧
      exec (.readmem a) t = .next (t.setResult (.byte b))

/-- The bank-switch state machine (R189, a rule the spec derives): a write to 0x8000 to 0xFFFF moves the pair as the variant
says, `RESET` and a successful `LOAD` give (0, 0), and no other operation but a `TICK` (by the writes a CPU step issues)
changes it. -/
def Obligations.BankRegistersMoveAsStated : Prop :=
  ∀ (i : Instr) (s t : State) (m m' : Ncore) (c c' : Cart), s.life = .live m → m.cart = some c → exec i s = .next t →
    t.life = .live m' → m'.cart = some c' →
    (∀ a d, (i = .wrPrg a d ∨ (i = .writemem a d ∧ 0x8000#16 ≤ a)) →
      (c.variant = .fixed → c'.banks = c.banks) ∧ (c.variant = .prgsw → c'.banks = (d, c.chrBank)) ∧
      (c.variant = .chrsw → c'.banks = (c.prgBank, d))) ∧
    (i = .reset → c'.banks = (0#8, 0#8)) ∧
    (∀ img ok, i = .load img ok → c'.banks = if t.result = .loadOk then (0#8, 0#8) else c.banks) ∧
    ((∀ a d, i ≠ .wrPrg a d) → (∀ a d, i = .writemem a d → a < 0x8000#16) → i ≠ .reset →
      (∀ img ok, i ≠ .load img ok) → i ≠ .tick → c'.banks = c.banks)

/-- A CPU-bus read depends on the arrays and the record alone: machines that agree on these answer alike, whatever the
collaborators' states, the counters and the interrupt flags are (R77, R142 to R148). -/
def Obligations.BusReadsIgnoreChips : Prop :=
  ∀ (s₁ s₂ : State) (m₁ m₂ : Ncore) (a : Addr), s₁.life = .live m₁ → s₂.life = .live m₂ → s₁.params = s₂.params →
    m₁.lowmem = m₂.lowmem → m₁.ppuregs = m₂.ppuregs → m₁.apuregs = m₂.apuregs → m₁.cart = m₂.cart →
    ∃ b, exec (.readmem a) s₁ = .next (s₁.setResult (.byte b)) ∧
      exec (.readmem a) s₂ = .next (s₂.setResult (.byte b))

/-! ### The scheduler and the interrupts -/

/-- `Run` performs each transaction of a step program at once, in issue order, and feeds the result back (R252; the shape of
the programs is the spec's own decision, D24). -/
def Obligations.RunPerformsTransactionsAtOnce : Prop :=
  ∀ (p : Params) (R : Type) (n : Nat) (m : Ncore),
    (∀ r : R, runBus p (.done r : BusProg R n) m = (r, m)) ∧
    (∀ (a : Addr) (k : Byte → BusProg R n), runBus p (.read a k) m = runBus p (k (memRead p m a)) m) ∧
    (∀ (a : Addr) (d : Byte) (k : BusProg R n), runBus p (.write a d k) m = runBus p k (memWrite p m a d)) ∧
    (∀ r : R, runPpu p (.done r : PpuProg R n) m = (r, m)) ∧
    (∀ (i : Fin 8) (k : Byte → PpuProg R n),
      runPpu p (.regRead i k) m = runPpu p (k (Memory.read p.resetFill m.ppuregs i.val)) m) ∧
    (∀ (i : Fin 8) (d : Byte) (k : PpuProg R n), runPpu p (.regWrite i d k) m =
      runPpu p k (m.setPpuregs (Memory.write p.resetFill m.ppuregs i.val d))) ∧
    (∀ (v : PatAddr) (k : Byte → PpuProg R n), runPpu p (.chrRead v k) m = runPpu p (k (chrRead p m v)) m) ∧
    (∀ (v : PatAddr) (d : Byte) (k : PpuProg R n), runPpu p (.chrWrite v d k) m = runPpu p k (chrWrite p m v d)) ∧
    (∀ r : R, runApu p (.done r : ApuProg R n) m = (r, m)) ∧
    (∀ (i : Fin 24) (k : Byte → ApuProg R n),
      runApu p (.regRead i k) m = runApu p (k (Memory.read p.resetFill m.apuregs i.val)) m) ∧
    (∀ (i : Fin 24) (d : Byte) (k : ApuProg R n), runApu p (.regWrite i d k) m =
      runApu p k (m.setApuregs (Memory.write p.resetFill m.apuregs i.val d)))

/-- Taking an interrupt, for every collaborator that meets its obligations: the program of `CpuEnter`, given the CPU's state,
the kind and the handler address read before it runs, is performed on the machine, its bus writes kept, and the state it
answers is the CPU's (R292). The handler address is read low byte at the lower address, from 0xFFFA for `NMI` and from 0xFFFE
for `IRQ` and `BRK`; it is the `pc` afterwards; the interrupt flags, the counters, the other chips' states and what `LOAD`
fixed in the record are unchanged. The spec's own decisions (D25, D26, D27). -/
def Obligations.DispatchEntersAtVector : Prop :=
  ∀ (p : Params) (n : Nat) (k : Collaborators n) (e : Interrupt) (m : Ncore),
    (∀ (v : Addr) (c : CpuState) (m' : Ncore),
      v = (if e = .nmi then memRead p m 0xFFFB#16 ++ memRead p m 0xFFFA#16
        else memRead p m 0xFFFF#16 ++ memRead p m 0xFFFE#16) →
      runBus p (k.cpu.enter m.cpu e v) m = (c, m') → dispatch p k e m = m'.setCpu c) ∧
    ((dispatch p k e m).cpu.pc = if e = .nmi then memRead p m 0xFFFB#16 ++ memRead p m 0xFFFA#16
      else memRead p m 0xFFFF#16 ++ memRead p m 0xFFFE#16) ∧
    (dispatch p k e m).nmiPending = m.nmiPending ∧ (dispatch p k e m).irqLine = m.irqLine ∧
    (dispatch p k e m).cpuSteps = m.cpuSteps ∧ (dispatch p k e m).ppuSteps = m.ppuSteps ∧
    (dispatch p k e m).apuSteps = m.apuSteps ∧ (dispatch p k e m).ppu = m.ppu ∧ (dispatch p k e m).apu = m.apu ∧
    (dispatch p k e m).cart.map Cart.fixedPart = m.cart.map Cart.fixedPart

/-- What one CPU slot does, whole (R251), `NMI` before `IRQ`: a pending `NMI` is cleared and dispatched, and nothing else
happens; else an `IRQ` whose level is 1 and that the CPU enables is dispatched, and nothing else happens; else the CPU steps,
and a break it reports is dispatched in the same slot, after the step. Every slot counts one and keeps the line. Each clause
equates the slot with that event, counted; the vector's value is the `pc` after it. The spec's own decision (D27). -/
def Obligations.CpuSlotTakesOneEvent : Prop :=
  ∀ (p : Params) (n : Nat) (k : Collaborators n) (m : Ncore),
    (cpuSlot p k m).cpuSteps = (m.cpuSteps + 1) % 2 ^ p.counterBits ∧ (cpuSlot p k m).irqLine = m.irqLine ∧
    (m.nmiPending = true →
      cpuSlot p k m = (dispatch p k .nmi (m.setNmiPending false)).setCpuSteps ((m.cpuSteps + 1) % 2 ^ p.counterBits) ∧
      (cpuSlot p k m).nmiPending = false ∧
      (cpuSlot p k m).cpu.pc = memRead p m 0xFFFB#16 ++ memRead p m 0xFFFA#16) ∧
    (m.nmiPending = false → (cpuSlot p k m).nmiPending = false) ∧
    (m.nmiPending = false → m.irqLine = true → k.cpu.irqEnabled m.cpu = true →
      cpuSlot p k m = (dispatch p k .irq m).setCpuSteps ((m.cpuSteps + 1) % 2 ^ p.counterBits) ∧
      (cpuSlot p k m).cpu.pc = memRead p m 0xFFFF#16 ++ memRead p m 0xFFFE#16) ∧
    (m.nmiPending = false → (m.irqLine = false ∨ k.cpu.irqEnabled m.cpu = false) →
      ∀ (c : CpuState) (brk : Bool) (m' : Ncore), runBus p (k.cpu.step m.cpu) m = ((c, brk), m') →
        (brk = false → cpuSlot p k m = (m'.setCpu c).setCpuSteps ((m.cpuSteps + 1) % 2 ^ p.counterBits)) ∧
        (brk = true →
          cpuSlot p k m = (dispatch p k .brk (m'.setCpu c)).setCpuSteps ((m.cpuSteps + 1) % 2 ^ p.counterBits) ∧
          (cpuSlot p k m).cpu.pc = memRead p m' 0xFFFF#16 ++ memRead p m' 0xFFFE#16))

/-- What a CPU step program can do, whatever the collaborator: it leaves the counters, the interrupt flags, the three chips'
states, what `LOAD` fixed in the record and `chr_ram` unchanged (R177, R251, R298; D11, D24). -/
def Obligations.CpuProgramFrame : Prop :=
  ∀ (p : Params) (R : Type) (n : Nat) (prog : BusProg R n) (m : Ncore),
    (runBus p prog m).2.cpuSteps = m.cpuSteps ∧ (runBus p prog m).2.ppuSteps = m.ppuSteps ∧
    (runBus p prog m).2.apuSteps = m.apuSteps ∧ (runBus p prog m).2.nmiPending = m.nmiPending ∧
    (runBus p prog m).2.irqLine = m.irqLine ∧ (runBus p prog m).2.cpu = m.cpu ∧ (runBus p prog m).2.ppu = m.ppu ∧
    (runBus p prog m).2.apu = m.apu ∧
    (runBus p prog m).2.cart.map Cart.fixedPart = m.cart.map Cart.fixedPart ∧
    (runBus p prog m).2.cart.map Cart.chrRam = m.cart.map Cart.chrRam

/-- One video step: the chip's new state, the latch set by a request and never cleared, one step counted; it has no access
to `lowmem`, `apuregs`, the bank registers, save RAM, the other chips, the line or the other counters, whatever the
collaborator. The spec's own decisions (D24, D27, D32). -/
def Obligations.PpuStepTouchesItsOwnOnly : Prop :=
  ∀ (p : Params) (n : Nat) (k : Collaborators n) (m : Ncore),
    (ppuStepOnce p k m).ppu = (runPpu p (k.ppu.step m.ppu) m).1.1 ∧
    (ppuStepOnce p k m).nmiPending = (m.nmiPending || (runPpu p (k.ppu.step m.ppu) m).1.2) ∧
    (ppuStepOnce p k m).ppuSteps = (m.ppuSteps + 1) % 2 ^ p.counterBits ∧
    (ppuStepOnce p k m).ppuregs = (runPpu p (k.ppu.step m.ppu) m).2.ppuregs ∧
    (ppuStepOnce p k m).cart = (runPpu p (k.ppu.step m.ppu) m).2.cart ∧
    (ppuStepOnce p k m).lowmem = m.lowmem ∧ (ppuStepOnce p k m).apuregs = m.apuregs ∧
    (ppuStepOnce p k m).cpuSteps = m.cpuSteps ∧ (ppuStepOnce p k m).apuSteps = m.apuSteps ∧
    (ppuStepOnce p k m).irqLine = m.irqLine ∧ (ppuStepOnce p k m).cpu = m.cpu ∧ (ppuStepOnce p k m).apu = m.apu ∧
    (ppuStepOnce p k m).cart.map Cart.fixedPart = m.cart.map Cart.fixedPart ∧
    (ppuStepOnce p k m).cart.map Cart.banks = m.cart.map Cart.banks ∧
    (ppuStepOnce p k m).cart.map Cart.prgRam = m.cart.map Cart.prgRam

/-- One audio step: the chip's new state, the line at the level it reports, one step counted, `apuregs` as its program left
it, and everything else unchanged, whatever the collaborator. The spec's own decisions (D24, D27, D32). -/
def Obligations.ApuStepTouchesItsOwnOnly : Prop :=
  ∀ (p : Params) (n : Nat) (k : Collaborators n) (m : Ncore),
    apuStepOnce p k m =
      (((m.setApuregs (runApu p (k.apu.step m.apu) m).2.apuregs).setApu (runApu p (k.apu.step m.apu) m).1.1).setIrqLine
        (runApu p (k.apu.step m.apu) m).1.2).setApuSteps ((m.apuSteps + 1) % 2 ^ p.counterBits)

/-- The tick law (R255 (i), derived by the spec): `N` ticks complete and advance the three counters by `N` times the counts
of the format, modulo `2^P_COUNTER_BITS`, whatever the collaborators do and whatever the cartridge holds. -/
def Obligations.TicksAdvanceCountersByRatio : Prop :=
  ∀ (s : State) (m : Ncore) (t : TickCounts) (N : Nat), s.life = .live m →
    (m.cart = none → t = s.params.counts s.params.defaultFormat) →
    (∀ c, m.cart = some c → t = s.params.counts c.hdr.format) →
    ∃ (u : State) (m' : Ncore), execAll (List.replicate N .tick) s = .next u ∧ u.life = .live m' ∧
      m'.cpuSteps % 2 ^ s.params.counterBits = (m.cpuSteps + N * t.cpu) % 2 ^ s.params.counterBits ∧
      m'.ppuSteps % 2 ^ s.params.counterBits = (m.ppuSteps + N * t.ppu) % 2 ^ s.params.counterBits ∧
      m'.apuSteps % 2 ^ s.params.counterBits = (m.apuSteps + N * t.apu) % 2 ^ s.params.counterBits

/-! ### The whole machine -/

/-- R286, whole: every operation of the table completes on a live machine, `CREATE` alone having another domain; none
faults on any machine. -/
def Obligations.LiveOperationsComplete : Prop :=
  (∀ (i : Instr) (s : State) (m : Ncore), s.life = .live m → i.wellFormed = true → i ≠ .create →
    ∃ t, exec i s = .next t) ∧
  (∀ (i : Instr) (s : State) (r : Fault), exec i s ≠ .fault r)

/-- R106, whole: what each operation returns. A bus read, a video-port read and `READMEM` return one byte, `LOAD` `OK` or an
error, `INSPECT` a record, every other operation nothing; so only `LOAD` can return an error. -/
def Obligations.ResultKindsAsStated : Prop :=
  ∀ (i : Instr) (s t : State), exec i s = .next t →
    (((∃ r a, i = readOp r a) ∨ (∃ v, i = .chrRd v) ∨ (∃ a, i = .readmem a)) → ∃ b, t.result = .byte b) ∧
    ((∃ img ok, i = .load img ok) → t.result = .loadOk ∨ ∃ e, t.result = .loadError e) ∧
    (i = .inspect → ∃ v, t.result = .snapshot v) ∧
    (((∃ r a d, i = writeOp r a d) ∨ (∃ v d, i = .chrWr v d) ∨ (∃ a d, i = .writemem a d) ∨ i = .create ∨ i = .reset ∨
      i = .tick ∨ i = .destroy) → t.result = .nothing)

/-- The life of a machine: only `CREATE` moves `ABSENT` to `LIVE`, only `DESTROY` moves `LIVE` to `DEAD`, every other
operation leaves a live machine live; parameters, whose turn it is and waiting requests are changed by no operation. The
three-valued life is the spec's own decision (D31); the last clause is about the model's own fields (log 1, log 6, log 12). -/
def Obligations.LifeMovesOnlyByCreateDestroy : Prop :=
  ∀ (i : Instr) (s t : State), exec i s = .next t →
    (i = .create → s.life = .absent ∧ ∃ m, t.life = .live m) ∧
    (i = .destroy → (∃ m, s.life = .live m) ∧ t.life = .dead) ∧
    (i ≠ .create → i ≠ .destroy → (∃ m, s.life = .live m) ∧ ∃ m, t.life = .live m) ∧
    t.params = s.params ∧ t.turn = s.turn ∧ t.requests = s.requests

/-- No operation but `LOAD` changes the header descriptor, `rom`, `vrom` or the variant of a loaded record, or loads or
unloads one, on a machine that stays live: not a bus write, not a `RESET`, not a `TICK` under any collaborators (R25 to R28,
R177, R242, R250; D11). -/
def Obligations.RomAndHeaderOnlyFromLoad : Prop :=
  ∀ (i : Instr) (s t : State) (m m' : Ncore), s.life = .live m → exec i s = .next t → t.life = .live m' →
    (∀ img ok, i ≠ .load img ok) → m'.cart.map Cart.fixedPart = m.cart.map Cart.fixedPart

/-- The step counters are changed by `TICK`, `RESET` and `CREATE` only (R33, R299; D23). -/
def Obligations.CountersMoveOnlyByTick : Prop :=
  ∀ (i : Instr) (s t : State) (m m' : Ncore), s.life = .live m → exec i s = .next t → t.life = .live m' →
    i ≠ .tick → i ≠ .reset →
    m'.cpuSteps = m.cpuSteps ∧ m'.ppuSteps = m.ppuSteps ∧ m'.apuSteps = m.apuSteps

/-- The invariant of the state (`State.wf`: arrays canonical and of their sizes, counters of their width, a record whose
buffers have the sizes its header says, whose RAMs are present exactly when the header says, and whose variant is the one
its id names) is kept by every step, under every collaborators. -/
def Obligations.StepKeepsInvariant : Prop :=
  ∀ s t : State, s.wf = true → step s = .next t → t.wf = true

/-- The invariant holds of the state after reset. -/
def Obligations.ResetMeetsInvariant : Prop :=
  State.reset.wf = true

/-- Who may issue which format, and when (R105, R298; D35): a step that answers next with a request waiting has run one
operation of that request's port, and the port was one the agent in turn holds: `HOST` words in the host's turn, `BUS` words
in the CPU's or the block's, `CHR` words in the video chip's only. So in the host's turn, between commands, only host commands
run, and no step leaves that turn. A word at another port is refused by name, which is the model's choice, as the turn itself
is (log 12). -/
def Obligations.WordsIssuedOnlyInTurn : Prop :=
  (∀ (s t : State) (q : Request) (rest : List Request), s.requests = q :: rest → step s = .next t →
    ∃ i : Instr, decode q.port q.bytes = .ok i ∧ i.port = q.port ∧ exec i (s.setRequests rest) = .next t ∧
      t.turn = s.turn ∧ t.requests = rest ∧
      (i.port = .host → s.turn = .host) ∧ (i.port = .bus → s.turn = .cpu ∨ s.turn = .block) ∧
      (i.port = .chr → s.turn = .ppu) ∧ (s.turn = .host → i.port = .host) ∧ s.turn ≠ .apu) ∧
  (∀ (s : State) (q : Request) (rest : List Request), s.requests = q :: rest →
    ((q.port = .host ∧ s.turn ≠ .host) ∨ (q.port = .bus ∧ s.turn ≠ .cpu ∧ s.turn ≠ .block) ∨
      (q.port = .chr ∧ s.turn ≠ .ppu)) →
    step s = .refused (.notItsTurn q.port))
end

