-- ==== Sys2Proof/Laws/Address.lean ====
section
/-! SUPPORT. The address map: the range of each region, the bounds of each index (spec/20_memory.md R62 to R69, R73), the
sizes of the RAMs. -/

namespace Sys2Proof.Machine

theorem regionOf_eq (a : Addr) : regionOf a =
    if a < 0x2000#16 then .ram else if a < 0x4000#16 then .ppu else if a < 0x4018#16 then .apu
    else if a < 0x4020#16 then .iox else if 0x8000#16 ≤ a then .prg else if 0x6000#16 ≤ a then .sram else .exp := by
  simp only [regionOf, decodeAddr, mapperDecode]
  split_ifs <;> rfl

theorem regionOf_ram {a : Addr} : regionOf a = .ram ↔ a < 0x2000#16 := by
  rw [regionOf_eq]; split_ifs <;> simp_all

theorem regionOf_ppu {a : Addr} : regionOf a = .ppu ↔ 0x2000#16 ≤ a ∧ a < 0x4000#16 := by
  rw [regionOf_eq]; split_ifs <;> simp_all

theorem regionOf_apu {a : Addr} : regionOf a = .apu ↔ 0x4000#16 ≤ a ∧ a < 0x4018#16 := by
  rw [regionOf_eq]; split_ifs <;> simp_all; bv_omega

theorem regionOf_iox {a : Addr} : regionOf a = .iox ↔ 0x4018#16 ≤ a ∧ a < 0x4020#16 := by
  rw [regionOf_eq]; split_ifs <;> simp_all <;> bv_omega

theorem regionOf_exp {a : Addr} : regionOf a = .exp ↔ 0x4020#16 ≤ a ∧ a < 0x6000#16 := by
  rw [regionOf_eq]; split_ifs <;> simp_all <;> bv_omega

theorem regionOf_sram {a : Addr} : regionOf a = .sram ↔ 0x6000#16 ≤ a ∧ a < 0x8000#16 := by
  rw [regionOf_eq]; split_ifs <;> simp_all <;> bv_omega

theorem regionOf_prg {a : Addr} : regionOf a = .prg ↔ 0x8000#16 ≤ a := by
  rw [regionOf_eq]; split_ifs <;> simp_all <;> bv_omega

theorem ramIndex_eq (a : Addr) : ramIndex a = a.toNat % 0x800 := by
  simp only [ramIndex, BitVec.toNat_and]
  exact Nat.and_two_pow_sub_one_eq_mod a.toNat 11

theorem ramIndex_lt (a : Addr) : ramIndex a < 0x800 := by
  rw [ramIndex_eq]; exact Nat.mod_lt _ (by decide)

theorem ppuIndex_eq (a : Addr) : ppuIndex a = a.toNat % 8 := by
  simp only [ppuIndex, BitVec.toNat_and, BitVec.toNat_sub]
  rw [show (7#16).toNat = 2 ^ 3 - 1 from rfl, Nat.and_two_pow_sub_one_eq_mod]
  have := a.isLt
  simp only [BitVec.toNat_ofNat]
  omega

theorem ppuIndex_lt (a : Addr) : ppuIndex a < 8 := by
  rw [ppuIndex_eq]; exact Nat.mod_lt _ (by decide)

theorem apuIndex_lt {a : Addr} (h : regionOf a = .apu) : apuIndex a < 24 := by
  rw [regionOf_apu] at h
  simp only [apuIndex]
  bv_omega

theorem sramIndex_lt {p : Params} (hp : 0 < p.prgRamSize) (a : Addr) : sramIndex p a < p.prgRamSize :=
  Nat.mod_lt _ hp

theorem wf_chrRamSize {p : Params} (h : p.wf = true) : 0 < p.chrRamSize := by
  simp only [Params.wf, Bool.and_eq_true, decide_eq_true_eq] at h
  exact h.1.1.1.1.1.2

theorem wf_prgRamSize {p : Params} (h : p.wf = true) : 0 < p.prgRamSize := by
  simp only [Params.wf, Bool.and_eq_true, decide_eq_true_eq, List.any_eq_true, beq_iff_eq] at h
  obtain ⟨k, -, hk⟩ := h.1.1.1.1.2
  rw [hk]
  exact Nat.two_pow_pos k

theorem count_pos {b : Byte} (h : b ≠ 0#8) : 0 < b.toNat := by
  rcases Nat.eq_zero_or_pos b.toNat with h0 | h0
  · exact absurd (BitVec.eq_of_toNat_eq h0) h
  · exact h0

/-- With no graphics banks every variant indexes `chr_ram` the same way (spec/41_mapper.md R183, R184). -/
theorem translateChr_chrRam {p : Params} {c : Cart} (h0 : c.hdr.chrBankCount = 0#8) (v : PatAddr) :
    translateChr p c v = v.toNat % p.chrRamSize := by
  cases hvar : c.variant <;>
    simp only [translateChr, hvar, translateChrFixed, translateChrSwitched, chrBufSize, h0, if_true]

end Sys2Proof.Machine
end

