-- ==== Sys2Proof/Laws/Decode.lean ====
section
/-! SUPPORT. The fields of a word as arithmetic on its value; masks of top bits are intervals; the row a `BUS` word selects,
by the value of the word; the port of what is decoded (spec/30_encoding.md R101 to R103). -/

namespace Sys2Proof.Machine

/-! ### Fields -/

theorem toNat_append_eq {m n : Nat} (x : BitVec m) (y : BitVec n) : (x ++ y).toNat = x.toNat * 2 ^ n + y.toNat := by
  rw [BitVec.toNat_append, ← Nat.shiftLeft_add_eq_or_of_lt y.isLt, Nat.shiftLeft_eq]

theorem byteOf_toNat {n : Nat} (w : BitVec n) (k : Nat) : (byteOf w k).toNat = w.toNat / 2 ^ (8 * k) % 256 := by
  simp [byteOf, BitVec.extractLsb'_toNat, Nat.shiftRight_eq_div_pow]

theorem busWord_toNat (wr : Bool) (a : Addr) : (busWord wr a).toNat = (if wr then 0x10000 else 0) + a.toNat := by
  rw [busWord, toNat_append_eq]; cases wr <;> rfl

theorem chrWord_toNat (wr : Bool) (v : PatAddr) : (chrWord wr v).toNat = (if wr then 0x2000 else 0) + v.toNat := by
  rw [chrWord, toNat_append_eq]; cases wr <;> rfl

theorem busWordAddr_toNat (w : BitVec 17) : (busWordAddr w).toNat = w.toNat % 0x10000 := by
  simp [busWordAddr, BitVec.extractLsb'_toNat]

theorem chrWordAddr_toNat (w : BitVec 14) : (chrWordAddr w).toNat = w.toNat % 0x2000 := by
  simp [chrWordAddr, BitVec.extractLsb'_toNat]

/-- The `rw` bit of a `BUS` word. -/
theorem getLsbD_rw (w : BitVec 17) : w.getLsbD 16 = decide (0x10000 ≤ w.toNat) := by
  have h := w.isLt
  have h : w.toNat / 2 ^ 16 = 0 ∨ w.toNat / 2 ^ 16 = 1 := by omega
  rw [BitVec.getLsbD, Nat.testBit_eq_decide_div_mod_eq, Bool.eq_iff_iff, decide_eq_true_eq, decide_eq_true_eq]
  omega

/-! ### Masks -/

/-- Masking off the low `j` bits. -/
theorem and_highMask {n : Nat} (w : BitVec n) (j : Nat) :
    (w &&& (BitVec.allOnes n <<< j)).toNat = w.toNat / 2 ^ j * 2 ^ j := by
  have : w &&& (BitVec.allOnes n <<< j) = (w >>> j) <<< j := by
    ext i hi
    simp [BitVec.getElem_shiftLeft]
    by_cases h : i < j
    · simp [h]
    · simp [h]
      rw [show j + (i - j) = i by omega, BitVec.getLsbD_eq_getElem hi]
  rw [this, BitVec.toNat_shiftLeft, BitVec.toNat_ushiftRight, Nat.shiftRight_eq_div_pow, Nat.shiftLeft_eq]
  exact Nat.mod_eq_of_lt (lt_of_le_of_lt (Nat.div_mul_le_self _ _) w.isLt)

/-- The top bits of a byte are clear when the byte is small. -/
theorem and_high_zero {b : Byte} (j : Nat) : b &&& (BitVec.allOnes 8 <<< j) = 0#8 ↔ b.toNat < 2 ^ j := by
  rw [← BitVec.toNat_inj, and_highMask]
  have hp : 0 < 2 ^ j := Nat.two_pow_pos j
  simp [Nat.div_eq_zero_iff]

/-- A mask of the top bits selects an interval. -/
theorem and_mask_eq {w k : BitVec 17} (j : Nat) (hk : k.toNat % 2 ^ j = 0) :
    w &&& (BitVec.allOnes 17 <<< j) = k ↔ k.toNat ≤ w.toNat ∧ w.toNat < k.toNat + 2 ^ j := by
  rw [← BitVec.toNat_inj, and_highMask]
  have hp : 0 < 2 ^ j := Nat.two_pow_pos j
  have h1 := Nat.div_add_mod w.toNat (2 ^ j)
  have h2 := Nat.mod_lt w.toNat hp
  obtain ⟨q, hq⟩ := Nat.dvd_of_mod_eq_zero hk
  rw [hq]
  constructor
  · intro h
    rw [mul_comm] at h
    omega
  · rintro ⟨ha, hb⟩
    have : w.toNat / 2 ^ j = q := by
      apply Nat.div_eq_of_lt_le <;> nlinarith
    rw [this, mul_comm]

/-! ### The priority order of format `BUS` -/

/-- The words a row accepts are an interval. -/
theorem accepts_eq (j : Nat) {m k : BitVec 17} {wr : Bool} {r : Region} (hm : m = BitVec.allOnes 17 <<< j)
    (hk : k.toNat % 2 ^ j = 0) (w : BitVec 17) :
    BusRow.accepts ⟨m, k, wr, r⟩ w = decide (k.toNat ≤ w.toNat ∧ w.toNat < k.toNat + 2 ^ j) := by
  rw [Bool.eq_iff_iff, decide_eq_true_eq, BusRow.accepts, beq_iff_eq, hm, and_mask_eq j hk]

/-- One test of the priority order. -/
theorem find_cons (w : BitVec 17) (r : BusRow) (l : List BusRow) :
    (r :: l).find? (·.accepts w) = bif r.accepts w then some r else l.find? (·.accepts w) := by
  rw [List.find?_cons]; cases r.accepts w <;> rfl

/-- The row a word selects, by intervals of the word's value. -/
theorem busRow_eq (w : BitVec 17) : busRow w = some (
  if w.toNat < 0x2000 then ⟨0x1E000#17, 0x00000#17, false, .ram⟩
  else if w.toNat < 0x4000 then ⟨0x1E000#17, 0x02000#17, false, .ppu⟩
  else if w.toNat < 0x4018 then ⟨0x1FFE0#17, 0x04000#17, false, .apu⟩
  else if w.toNat < 0x4020 then ⟨0x1FFF8#17, 0x04018#17, false, .iox⟩
  else if w.toNat < 0x6000 then ⟨0x10000#17, 0x00000#17, false, .exp⟩
  else if w.toNat < 0x8000 then ⟨0x1E000#17, 0x06000#17, false, .sram⟩
  else if w.toNat < 0x10000 then ⟨0x18000#17, 0x08000#17, false, .prg⟩
  else if w.toNat < 0x12000 then ⟨0x1E000#17, 0x10000#17, true, .ram⟩
  else if w.toNat < 0x14000 then ⟨0x1E000#17, 0x12000#17, true, .ppu⟩
  else if w.toNat < 0x14018 then ⟨0x1FFE0#17, 0x14000#17, true, .apu⟩
  else if w.toNat < 0x14020 then ⟨0x1FFF8#17, 0x14018#17, true, .iox⟩
  else if w.toNat < 0x16000 then ⟨0x10000#17, 0x10000#17, true, .exp⟩
  else if w.toNat < 0x18000 then ⟨0x1E000#17, 0x16000#17, true, .sram⟩
  else ⟨0x18000#17, 0x18000#17, true, .prg⟩) := by
  have hw := w.isLt
  simp only [busRow, busTable, List.cons_append, List.nil_append, find_cons, List.find?_nil,
    accepts_eq 13 (m := 0x1E000#17) rfl (k := 0#17) rfl, accepts_eq 13 (m := 0x1E000#17) rfl (k := 0x2000#17) rfl,
    accepts_eq 3 (m := 0x1FFF8#17) rfl (k := 0x4018#17) rfl, accepts_eq 5 (m := 0x1FFE0#17) rfl (k := 0x4000#17) rfl,
    accepts_eq 15 (m := 0x18000#17) rfl (k := 0x8000#17) rfl, accepts_eq 13 (m := 0x1E000#17) rfl (k := 0x6000#17) rfl,
    accepts_eq 16 (m := 0x10000#17) rfl (k := 0#17) rfl,
    accepts_eq 13 (m := 0x1E000#17) rfl (k := 0x10000#17) rfl, accepts_eq 13 (m := 0x1E000#17) rfl (k := 0x12000#17) rfl,
    accepts_eq 3 (m := 0x1FFF8#17) rfl (k := 0x14018#17) rfl, accepts_eq 5 (m := 0x1FFE0#17) rfl (k := 0x14000#17) rfl,
    accepts_eq 15 (m := 0x18000#17) rfl (k := 0x18000#17) rfl, accepts_eq 13 (m := 0x1E000#17) rfl (k := 0x16000#17) rfl,
    accepts_eq 16 (m := 0x10000#17) rfl (k := 0x10000#17) rfl]
  simp only [BitVec.toNat_ofNat, Bool.cond_decide]
  norm_num at hw ⊢
  have hr : (0 ≤ w.toNat ∧ w.toNat < 8192) ∨ (8192 ≤ w.toNat ∧ w.toNat < 16384) ∨ (16384 ≤ w.toNat ∧ w.toNat <
    16408) ∨ (16408 ≤ w.toNat ∧ w.toNat < 16416) ∨ (16416 ≤ w.toNat ∧ w.toNat < 24576) ∨ (24576 ≤ w.toNat ∧
    w.toNat < 32768) ∨ (32768 ≤ w.toNat ∧ w.toNat < 65536) ∨ (65536 ≤ w.toNat ∧ w.toNat < 73728) ∨ (73728 ≤
    w.toNat ∧ w.toNat < 81920) ∨ (81920 ≤ w.toNat ∧ w.toNat < 81944) ∨ (81944 ≤ w.toNat ∧ w.toNat < 81952) ∨
    (81952 ≤ w.toNat ∧ w.toNat < 90112) ∨ (90112 ≤ w.toNat ∧ w.toNat < 98304) ∨ (98304 ≤ w.toNat ∧ w.toNat <
    131072) := by omega
  rcases hr with h|h|h|h|h|h|h|h|h|h|h|h|h|h <;>
    repeat (first | rw [if_pos (by omega)] | rw [if_neg (by omega)])

/-! ### The port of a decoded operation -/

theorem readOp_port (r : Region) (a : Addr) : (readOp r a).port = .bus := by cases r <;> rfl

theorem writeOp_port (r : Region) (a : Addr) (d : Byte) : (writeOp r a d).port = .bus := by cases r <;> rfl

theorem noOperands_ok {rest : List Byte} {i j : Instr} (h : noOperands rest i = .ok j) : rest = [] ∧ j = i := by
  unfold noOperands at h; split at h <;> simp_all

theorem dataOperand_ok {rest : List Byte} {f : Byte → Instr} {j : Instr} (h : dataOperand rest f = .ok j) :
    ∃ d, rest = [d] ∧ j = f d := by
  unfold dataOperand at h; split at h <;> simp_all

/-- The port of an operation read from the bytes of a request is the request's. -/
theorem decode_port {port : Port} {bytes : List Byte} {i : Instr} (h : decode port bytes = .ok i) : i.port = port := by
  unfold decode at h
  split at h
  · split at h
    · unfold decodeBusWord at h
      split at h
      · cases h
      · split at h
        · obtain ⟨d, -, rfl⟩ := dataOperand_ok h; exact writeOp_port _ _ _
        · obtain ⟨-, rfl⟩ := noOperands_ok h; exact readOp_port _ _
    · cases h
  · cases h
  · split at h
    · unfold decodeChrWord at h
      split at h
      · obtain ⟨d, -, rfl⟩ := dataOperand_ok h; rfl
      · obtain ⟨-, rfl⟩ := noOperands_ok h; rfl
    · cases h
  · cases h
  · unfold decodeHostOp at h
    repeat' split at h
    all_goals first
      | (obtain ⟨-, rfl⟩ := noOperands_ok h; rfl)
      | (cases h; rfl)
      | cases h
  · cases h

end Sys2Proof.Machine
end

