-- ==== Sys2Proof/Laws/Memory.lean ====
section
/-! SUPPORT. The laws of arrays: a read after a write, the canonical form and the size are kept, and two canonical arrays
that read alike are equal. -/

namespace Sys2Proof.Machine

variable (fill : Byte)

@[simp] theorem read_nil (i : Nat) : Memory.read fill [] i = fill := rfl

@[simp] theorem wf_nil : Memory.wf fill [] = true := rfl

@[simp] theorem below_nil (size : Nat) : Memory.below size [] = true := rfl

theorem wfFrom_cons {lo j : Nat} {e : Byte} {rest : Memory} :
    Memory.wfFrom fill lo ((j, e) :: rest) = true ↔ lo ≤ j ∧ e ≠ fill ∧ Memory.wfFrom fill (j + 1) rest = true := by
  simp only [Memory.wfFrom, Bool.and_eq_true, decide_eq_true_eq, and_assoc]

theorem wfFrom_mono {lo lo' : Nat} {m : Memory} (h : Memory.wfFrom fill lo m = true) (hl : lo' ≤ lo) :
    Memory.wfFrom fill lo' m = true := by
  cases m with
  | nil => rfl
  | cons c rest =>
    obtain ⟨j, e⟩ := c
    rw [wfFrom_cons] at h ⊢
    exact ⟨hl.trans h.1, h.2⟩

/-- Below its first possible index a canonical array reads as `fill`. -/
theorem read_of_lt {lo i : Nat} {m : Memory} (h : Memory.wfFrom fill lo m = true) (hi : i < lo) :
    Memory.read fill m i = fill := by
  induction m generalizing lo with
  | nil => rfl
  | cons c rest ih =>
    obtain ⟨j, e⟩ := c
    rw [wfFrom_cons] at h
    have hj : i ≠ j := by omega
    simp only [Memory.read, hj, if_false]
    exact ih h.2.2 (by omega)

/-- A read after a write to the array, at any index. -/
theorem read_write {lo : Nat} {m : Memory} (h : Memory.wfFrom fill lo m = true) (i j : Nat) (d : Byte) :
    Memory.read fill (Memory.write fill m i d) j = if j = i then d else Memory.read fill m j := by
  induction m generalizing lo with
  | nil =>
    by_cases hd : d = fill <;> by_cases hj : j = i <;> simp [Memory.write, Memory.read, hd, hj]
  | cons c rest ih =>
    obtain ⟨k, e⟩ := c
    rw [wfFrom_cons] at h
    have below : ∀ x, x ≤ k → Memory.read fill rest x = fill := fun x hx => read_of_lt fill h.2.2 (by omega)
    simp only [Memory.write]
    rcases lt_trichotomy i k with hik | hik | hik
    · by_cases hd : d = fill
      · by_cases hj : j = i
        · subst hj; simp [hik, hd, Memory.read, hik.ne, below j hik.le]
        · simp [hik, hd, hj]
      · by_cases hj : j = i <;> simp [hik, hd, hj, Memory.read]
    · subst hik
      by_cases hd : d = fill
      · by_cases hj : j = i
        · subst hj; simp [hd, below j le_rfl]
        · simp [hd, hj, Memory.read]
      · by_cases hj : j = i <;> simp [hd, hj, Memory.read]
    · rw [if_neg (by omega), if_neg (by omega)]
      by_cases hj : j = k
      · subst hj
        have hji : j ≠ i := by omega
        simp [Memory.read, hji]
      · simp only [Memory.read, hj, if_false]
        exact ih h.2.2

/-- A write keeps the canonical form. -/
theorem write_wfFrom {lo : Nat} {m : Memory} (h : Memory.wfFrom fill lo m = true) (i : Nat) (d : Byte) (hi : lo ≤ i) :
    Memory.wfFrom fill lo (Memory.write fill m i d) = true := by
  induction m generalizing lo with
  | nil =>
    by_cases hd : d = fill
    · simp [Memory.write, hd, Memory.wfFrom]
    · simp [Memory.write, hd, Memory.wfFrom, hi]
  | cons c rest ih =>
    obtain ⟨k, e⟩ := c
    have h' := h
    rw [wfFrom_cons] at h'
    obtain ⟨hk, he, hr⟩ := h'
    simp only [Memory.write]
    rcases lt_trichotomy i k with hik | hik | hik
    · by_cases hd : d = fill
      · simpa [hik, hd] using h
      · simp only [hik, if_true, hd, if_false, wfFrom_cons]
        exact ⟨hi, hd, by omega, he, hr⟩
    · subst hik
      by_cases hd : d = fill
      · simp only [lt_irrefl, if_false, if_true, hd]
        exact wfFrom_mono fill hr (by omega)
      · simp only [lt_irrefl, if_false, if_true, hd, wfFrom_cons]
        exact ⟨hk, hd, hr⟩
    · rw [if_neg (by omega), if_neg (by omega), wfFrom_cons]
      exact ⟨hk, he, ih hr (by omega)⟩

theorem write_wf {m : Memory} (h : Memory.wf fill m = true) (i : Nat) (d : Byte) :
    Memory.wf fill (Memory.write fill m i d) = true :=
  write_wfFrom fill h i d (Nat.zero_le i)

theorem below_cons {size j : Nat} {e : Byte} {rest : Memory} :
    Memory.below size ((j, e) :: rest) = true ↔ j < size ∧ Memory.below size rest = true := by
  simp only [Memory.below, List.all_cons, Bool.and_eq_true, decide_eq_true_eq]

/-- A write inside the array keeps its size. -/
theorem write_below {size : Nat} {m : Memory} (h : Memory.below size m = true) {i : Nat} (d : Byte) (hi : i < size) :
    Memory.below size (Memory.write fill m i d) = true := by
  induction m with
  | nil =>
    by_cases hd : d = fill
    · simp [Memory.write, hd]
    · simp [Memory.write, hd, below_cons, hi]
  | cons c rest ih =>
    obtain ⟨k, e⟩ := c
    have hk := below_cons.mp h
    simp only [Memory.write]
    split
    · split
      · exact h
      · exact below_cons.mpr ⟨hi, h⟩
    · split
      · split
        · exact hk.2
        · exact below_cons.mpr ⟨hi, hk.2⟩
      · exact below_cons.mpr ⟨hk.1, ih hk.2⟩

/-- Canonical arrays that read alike are equal: equal contents are equal data. -/
theorem eq_of_read_eq {lo : Nat} {m m' : Memory} (h : Memory.wfFrom fill lo m = true)
    (h' : Memory.wfFrom fill lo m' = true) (hr : ∀ i, Memory.read fill m i = Memory.read fill m' i) : m = m' := by
  induction m generalizing lo m' with
  | nil =>
    cases m' with
    | nil => rfl
    | cons c rest =>
      obtain ⟨j, e⟩ := c
      rw [wfFrom_cons] at h'
      exact absurd (by simpa [Memory.read] using (hr j).symm) h'.2.1
  | cons c rest ih =>
    obtain ⟨j, e⟩ := c
    rw [wfFrom_cons] at h
    cases m' with
    | nil => exact absurd (by simpa [Memory.read] using hr j) h.2.1
    | cons c' rest' =>
      obtain ⟨j', e'⟩ := c'
      rw [wfFrom_cons] at h'
      have hjj : j = j' := by
        rcases lt_trichotomy j j' with hlt | heq | hgt
        · have := hr j
          simp only [Memory.read, if_true, hlt.ne, if_false] at this
          rw [read_of_lt fill h'.2.2 (by omega)] at this
          exact absurd this h.2.1
        · exact heq
        · have := hr j'
          simp only [Memory.read, if_true, hgt.ne, if_false] at this
          rw [read_of_lt fill h.2.2 (by omega)] at this
          exact absurd this.symm h'.2.1
      subst hjj
      have hee : e = e' := by simpa [Memory.read] using hr j
      subst hee
      congr 1
      refine ih h.2.2 h'.2.2 fun i => ?_
      by_cases hi : i = j
      · subst hi
        rw [read_of_lt fill h.2.2 (by omega), read_of_lt fill h'.2.2 (by omega)]
      · simpa [Memory.read, hi] using hr i

end Sys2Proof.Machine
end

