-- ==== Sys2Proof/Laws/State.lean ====
section
/-! SUPPORT. One lemma for each field of each named update, so that no proof unfolds a record update; the updates of the
CPU collaborator's `pc`; the reset state's fields. -/

namespace Sys2Proof.Machine

section StateUpdates

variable (s : State)

@[simp] theorem State.setLife_params (x) : (s.setLife x).params = s.params := rfl
@[simp] theorem State.setLife_life (x) : (s.setLife x).life = x := rfl
@[simp] theorem State.setLife_turn (x) : (s.setLife x).turn = s.turn := rfl
@[simp] theorem State.setLife_requests (x) : (s.setLife x).requests = s.requests := rfl
@[simp] theorem State.setLife_result (x) : (s.setLife x).result = s.result := rfl

@[simp] theorem State.setTurn_params (x) : (s.setTurn x).params = s.params := rfl
@[simp] theorem State.setTurn_life (x) : (s.setTurn x).life = s.life := rfl
@[simp] theorem State.setTurn_turn (x) : (s.setTurn x).turn = x := rfl
@[simp] theorem State.setTurn_requests (x) : (s.setTurn x).requests = s.requests := rfl
@[simp] theorem State.setTurn_result (x) : (s.setTurn x).result = s.result := rfl

@[simp] theorem State.setRequests_params (x) : (s.setRequests x).params = s.params := rfl
@[simp] theorem State.setRequests_life (x) : (s.setRequests x).life = s.life := rfl
@[simp] theorem State.setRequests_turn (x) : (s.setRequests x).turn = s.turn := rfl
@[simp] theorem State.setRequests_requests (x) : (s.setRequests x).requests = x := rfl
@[simp] theorem State.setRequests_result (x) : (s.setRequests x).result = s.result := rfl

@[simp] theorem State.setResult_params (x) : (s.setResult x).params = s.params := rfl
@[simp] theorem State.setResult_life (x) : (s.setResult x).life = s.life := rfl
@[simp] theorem State.setResult_turn (x) : (s.setResult x).turn = s.turn := rfl
@[simp] theorem State.setResult_requests (x) : (s.setResult x).requests = s.requests := rfl
@[simp] theorem State.setResult_result (x) : (s.setResult x).result = x := rfl

end StateUpdates

section NcoreUpdates

variable (m : Ncore)

@[simp] theorem Ncore.setLowmem_lowmem (x) : (m.setLowmem x).lowmem = x := rfl
@[simp] theorem Ncore.setLowmem_ppuregs (x) : (m.setLowmem x).ppuregs = m.ppuregs := rfl
@[simp] theorem Ncore.setLowmem_apuregs (x) : (m.setLowmem x).apuregs = m.apuregs := rfl
@[simp] theorem Ncore.setLowmem_cart (x) : (m.setLowmem x).cart = m.cart := rfl
@[simp] theorem Ncore.setLowmem_cpuSteps (x) : (m.setLowmem x).cpuSteps = m.cpuSteps := rfl
@[simp] theorem Ncore.setLowmem_ppuSteps (x) : (m.setLowmem x).ppuSteps = m.ppuSteps := rfl
@[simp] theorem Ncore.setLowmem_apuSteps (x) : (m.setLowmem x).apuSteps = m.apuSteps := rfl
@[simp] theorem Ncore.setLowmem_nmiPending (x) : (m.setLowmem x).nmiPending = m.nmiPending := rfl
@[simp] theorem Ncore.setLowmem_irqLine (x) : (m.setLowmem x).irqLine = m.irqLine := rfl
@[simp] theorem Ncore.setLowmem_cpu (x) : (m.setLowmem x).cpu = m.cpu := rfl
@[simp] theorem Ncore.setLowmem_ppu (x) : (m.setLowmem x).ppu = m.ppu := rfl
@[simp] theorem Ncore.setLowmem_apu (x) : (m.setLowmem x).apu = m.apu := rfl

@[simp] theorem Ncore.setPpuregs_lowmem (x) : (m.setPpuregs x).lowmem = m.lowmem := rfl
@[simp] theorem Ncore.setPpuregs_ppuregs (x) : (m.setPpuregs x).ppuregs = x := rfl
@[simp] theorem Ncore.setPpuregs_apuregs (x) : (m.setPpuregs x).apuregs = m.apuregs := rfl
@[simp] theorem Ncore.setPpuregs_cart (x) : (m.setPpuregs x).cart = m.cart := rfl
@[simp] theorem Ncore.setPpuregs_cpuSteps (x) : (m.setPpuregs x).cpuSteps = m.cpuSteps := rfl
@[simp] theorem Ncore.setPpuregs_ppuSteps (x) : (m.setPpuregs x).ppuSteps = m.ppuSteps := rfl
@[simp] theorem Ncore.setPpuregs_apuSteps (x) : (m.setPpuregs x).apuSteps = m.apuSteps := rfl
@[simp] theorem Ncore.setPpuregs_nmiPending (x) : (m.setPpuregs x).nmiPending = m.nmiPending := rfl
@[simp] theorem Ncore.setPpuregs_irqLine (x) : (m.setPpuregs x).irqLine = m.irqLine := rfl
@[simp] theorem Ncore.setPpuregs_cpu (x) : (m.setPpuregs x).cpu = m.cpu := rfl
@[simp] theorem Ncore.setPpuregs_ppu (x) : (m.setPpuregs x).ppu = m.ppu := rfl
@[simp] theorem Ncore.setPpuregs_apu (x) : (m.setPpuregs x).apu = m.apu := rfl

@[simp] theorem Ncore.setApuregs_lowmem (x) : (m.setApuregs x).lowmem = m.lowmem := rfl
@[simp] theorem Ncore.setApuregs_ppuregs (x) : (m.setApuregs x).ppuregs = m.ppuregs := rfl
@[simp] theorem Ncore.setApuregs_apuregs (x) : (m.setApuregs x).apuregs = x := rfl
@[simp] theorem Ncore.setApuregs_cart (x) : (m.setApuregs x).cart = m.cart := rfl
@[simp] theorem Ncore.setApuregs_cpuSteps (x) : (m.setApuregs x).cpuSteps = m.cpuSteps := rfl
@[simp] theorem Ncore.setApuregs_ppuSteps (x) : (m.setApuregs x).ppuSteps = m.ppuSteps := rfl
@[simp] theorem Ncore.setApuregs_apuSteps (x) : (m.setApuregs x).apuSteps = m.apuSteps := rfl
@[simp] theorem Ncore.setApuregs_nmiPending (x) : (m.setApuregs x).nmiPending = m.nmiPending := rfl
@[simp] theorem Ncore.setApuregs_irqLine (x) : (m.setApuregs x).irqLine = m.irqLine := rfl
@[simp] theorem Ncore.setApuregs_cpu (x) : (m.setApuregs x).cpu = m.cpu := rfl
@[simp] theorem Ncore.setApuregs_ppu (x) : (m.setApuregs x).ppu = m.ppu := rfl
@[simp] theorem Ncore.setApuregs_apu (x) : (m.setApuregs x).apu = m.apu := rfl

@[simp] theorem Ncore.setCart_lowmem (x) : (m.setCart x).lowmem = m.lowmem := rfl
@[simp] theorem Ncore.setCart_ppuregs (x) : (m.setCart x).ppuregs = m.ppuregs := rfl
@[simp] theorem Ncore.setCart_apuregs (x) : (m.setCart x).apuregs = m.apuregs := rfl
@[simp] theorem Ncore.setCart_cart (x) : (m.setCart x).cart = x := rfl
@[simp] theorem Ncore.setCart_cpuSteps (x) : (m.setCart x).cpuSteps = m.cpuSteps := rfl
@[simp] theorem Ncore.setCart_ppuSteps (x) : (m.setCart x).ppuSteps = m.ppuSteps := rfl
@[simp] theorem Ncore.setCart_apuSteps (x) : (m.setCart x).apuSteps = m.apuSteps := rfl
@[simp] theorem Ncore.setCart_nmiPending (x) : (m.setCart x).nmiPending = m.nmiPending := rfl
@[simp] theorem Ncore.setCart_irqLine (x) : (m.setCart x).irqLine = m.irqLine := rfl
@[simp] theorem Ncore.setCart_cpu (x) : (m.setCart x).cpu = m.cpu := rfl
@[simp] theorem Ncore.setCart_ppu (x) : (m.setCart x).ppu = m.ppu := rfl
@[simp] theorem Ncore.setCart_apu (x) : (m.setCart x).apu = m.apu := rfl

@[simp] theorem Ncore.setCpuSteps_lowmem (x) : (m.setCpuSteps x).lowmem = m.lowmem := rfl
@[simp] theorem Ncore.setCpuSteps_ppuregs (x) : (m.setCpuSteps x).ppuregs = m.ppuregs := rfl
@[simp] theorem Ncore.setCpuSteps_apuregs (x) : (m.setCpuSteps x).apuregs = m.apuregs := rfl
@[simp] theorem Ncore.setCpuSteps_cart (x) : (m.setCpuSteps x).cart = m.cart := rfl
@[simp] theorem Ncore.setCpuSteps_cpuSteps (x) : (m.setCpuSteps x).cpuSteps = x := rfl
@[simp] theorem Ncore.setCpuSteps_ppuSteps (x) : (m.setCpuSteps x).ppuSteps = m.ppuSteps := rfl
@[simp] theorem Ncore.setCpuSteps_apuSteps (x) : (m.setCpuSteps x).apuSteps = m.apuSteps := rfl
@[simp] theorem Ncore.setCpuSteps_nmiPending (x) : (m.setCpuSteps x).nmiPending = m.nmiPending := rfl
@[simp] theorem Ncore.setCpuSteps_irqLine (x) : (m.setCpuSteps x).irqLine = m.irqLine := rfl
@[simp] theorem Ncore.setCpuSteps_cpu (x) : (m.setCpuSteps x).cpu = m.cpu := rfl
@[simp] theorem Ncore.setCpuSteps_ppu (x) : (m.setCpuSteps x).ppu = m.ppu := rfl
@[simp] theorem Ncore.setCpuSteps_apu (x) : (m.setCpuSteps x).apu = m.apu := rfl

@[simp] theorem Ncore.setPpuSteps_lowmem (x) : (m.setPpuSteps x).lowmem = m.lowmem := rfl
@[simp] theorem Ncore.setPpuSteps_ppuregs (x) : (m.setPpuSteps x).ppuregs = m.ppuregs := rfl
@[simp] theorem Ncore.setPpuSteps_apuregs (x) : (m.setPpuSteps x).apuregs = m.apuregs := rfl
@[simp] theorem Ncore.setPpuSteps_cart (x) : (m.setPpuSteps x).cart = m.cart := rfl
@[simp] theorem Ncore.setPpuSteps_cpuSteps (x) : (m.setPpuSteps x).cpuSteps = m.cpuSteps := rfl
@[simp] theorem Ncore.setPpuSteps_ppuSteps (x) : (m.setPpuSteps x).ppuSteps = x := rfl
@[simp] theorem Ncore.setPpuSteps_apuSteps (x) : (m.setPpuSteps x).apuSteps = m.apuSteps := rfl
@[simp] theorem Ncore.setPpuSteps_nmiPending (x) : (m.setPpuSteps x).nmiPending = m.nmiPending := rfl
@[simp] theorem Ncore.setPpuSteps_irqLine (x) : (m.setPpuSteps x).irqLine = m.irqLine := rfl
@[simp] theorem Ncore.setPpuSteps_cpu (x) : (m.setPpuSteps x).cpu = m.cpu := rfl
@[simp] theorem Ncore.setPpuSteps_ppu (x) : (m.setPpuSteps x).ppu = m.ppu := rfl
@[simp] theorem Ncore.setPpuSteps_apu (x) : (m.setPpuSteps x).apu = m.apu := rfl

@[simp] theorem Ncore.setApuSteps_lowmem (x) : (m.setApuSteps x).lowmem = m.lowmem := rfl
@[simp] theorem Ncore.setApuSteps_ppuregs (x) : (m.setApuSteps x).ppuregs = m.ppuregs := rfl
@[simp] theorem Ncore.setApuSteps_apuregs (x) : (m.setApuSteps x).apuregs = m.apuregs := rfl
@[simp] theorem Ncore.setApuSteps_cart (x) : (m.setApuSteps x).cart = m.cart := rfl
@[simp] theorem Ncore.setApuSteps_cpuSteps (x) : (m.setApuSteps x).cpuSteps = m.cpuSteps := rfl
@[simp] theorem Ncore.setApuSteps_ppuSteps (x) : (m.setApuSteps x).ppuSteps = m.ppuSteps := rfl
@[simp] theorem Ncore.setApuSteps_apuSteps (x) : (m.setApuSteps x).apuSteps = x := rfl
@[simp] theorem Ncore.setApuSteps_nmiPending (x) : (m.setApuSteps x).nmiPending = m.nmiPending := rfl
@[simp] theorem Ncore.setApuSteps_irqLine (x) : (m.setApuSteps x).irqLine = m.irqLine := rfl
@[simp] theorem Ncore.setApuSteps_cpu (x) : (m.setApuSteps x).cpu = m.cpu := rfl
@[simp] theorem Ncore.setApuSteps_ppu (x) : (m.setApuSteps x).ppu = m.ppu := rfl
@[simp] theorem Ncore.setApuSteps_apu (x) : (m.setApuSteps x).apu = m.apu := rfl

@[simp] theorem Ncore.setNmiPending_lowmem (x) : (m.setNmiPending x).lowmem = m.lowmem := rfl
@[simp] theorem Ncore.setNmiPending_ppuregs (x) : (m.setNmiPending x).ppuregs = m.ppuregs := rfl
@[simp] theorem Ncore.setNmiPending_apuregs (x) : (m.setNmiPending x).apuregs = m.apuregs := rfl
@[simp] theorem Ncore.setNmiPending_cart (x) : (m.setNmiPending x).cart = m.cart := rfl
@[simp] theorem Ncore.setNmiPending_cpuSteps (x) : (m.setNmiPending x).cpuSteps = m.cpuSteps := rfl
@[simp] theorem Ncore.setNmiPending_ppuSteps (x) : (m.setNmiPending x).ppuSteps = m.ppuSteps := rfl
@[simp] theorem Ncore.setNmiPending_apuSteps (x) : (m.setNmiPending x).apuSteps = m.apuSteps := rfl
@[simp] theorem Ncore.setNmiPending_nmiPending (x) : (m.setNmiPending x).nmiPending = x := rfl
@[simp] theorem Ncore.setNmiPending_irqLine (x) : (m.setNmiPending x).irqLine = m.irqLine := rfl
@[simp] theorem Ncore.setNmiPending_cpu (x) : (m.setNmiPending x).cpu = m.cpu := rfl
@[simp] theorem Ncore.setNmiPending_ppu (x) : (m.setNmiPending x).ppu = m.ppu := rfl
@[simp] theorem Ncore.setNmiPending_apu (x) : (m.setNmiPending x).apu = m.apu := rfl

@[simp] theorem Ncore.setIrqLine_lowmem (x) : (m.setIrqLine x).lowmem = m.lowmem := rfl
@[simp] theorem Ncore.setIrqLine_ppuregs (x) : (m.setIrqLine x).ppuregs = m.ppuregs := rfl
@[simp] theorem Ncore.setIrqLine_apuregs (x) : (m.setIrqLine x).apuregs = m.apuregs := rfl
@[simp] theorem Ncore.setIrqLine_cart (x) : (m.setIrqLine x).cart = m.cart := rfl
@[simp] theorem Ncore.setIrqLine_cpuSteps (x) : (m.setIrqLine x).cpuSteps = m.cpuSteps := rfl
@[simp] theorem Ncore.setIrqLine_ppuSteps (x) : (m.setIrqLine x).ppuSteps = m.ppuSteps := rfl
@[simp] theorem Ncore.setIrqLine_apuSteps (x) : (m.setIrqLine x).apuSteps = m.apuSteps := rfl
@[simp] theorem Ncore.setIrqLine_nmiPending (x) : (m.setIrqLine x).nmiPending = m.nmiPending := rfl
@[simp] theorem Ncore.setIrqLine_irqLine (x) : (m.setIrqLine x).irqLine = x := rfl
@[simp] theorem Ncore.setIrqLine_cpu (x) : (m.setIrqLine x).cpu = m.cpu := rfl
@[simp] theorem Ncore.setIrqLine_ppu (x) : (m.setIrqLine x).ppu = m.ppu := rfl
@[simp] theorem Ncore.setIrqLine_apu (x) : (m.setIrqLine x).apu = m.apu := rfl

@[simp] theorem Ncore.setCpu_lowmem (x) : (m.setCpu x).lowmem = m.lowmem := rfl
@[simp] theorem Ncore.setCpu_ppuregs (x) : (m.setCpu x).ppuregs = m.ppuregs := rfl
@[simp] theorem Ncore.setCpu_apuregs (x) : (m.setCpu x).apuregs = m.apuregs := rfl
@[simp] theorem Ncore.setCpu_cart (x) : (m.setCpu x).cart = m.cart := rfl
@[simp] theorem Ncore.setCpu_cpuSteps (x) : (m.setCpu x).cpuSteps = m.cpuSteps := rfl
@[simp] theorem Ncore.setCpu_ppuSteps (x) : (m.setCpu x).ppuSteps = m.ppuSteps := rfl
@[simp] theorem Ncore.setCpu_apuSteps (x) : (m.setCpu x).apuSteps = m.apuSteps := rfl
@[simp] theorem Ncore.setCpu_nmiPending (x) : (m.setCpu x).nmiPending = m.nmiPending := rfl
@[simp] theorem Ncore.setCpu_irqLine (x) : (m.setCpu x).irqLine = m.irqLine := rfl
@[simp] theorem Ncore.setCpu_cpu (x) : (m.setCpu x).cpu = x := rfl
@[simp] theorem Ncore.setCpu_ppu (x) : (m.setCpu x).ppu = m.ppu := rfl
@[simp] theorem Ncore.setCpu_apu (x) : (m.setCpu x).apu = m.apu := rfl

@[simp] theorem Ncore.setPpu_lowmem (x) : (m.setPpu x).lowmem = m.lowmem := rfl
@[simp] theorem Ncore.setPpu_ppuregs (x) : (m.setPpu x).ppuregs = m.ppuregs := rfl
@[simp] theorem Ncore.setPpu_apuregs (x) : (m.setPpu x).apuregs = m.apuregs := rfl
@[simp] theorem Ncore.setPpu_cart (x) : (m.setPpu x).cart = m.cart := rfl
@[simp] theorem Ncore.setPpu_cpuSteps (x) : (m.setPpu x).cpuSteps = m.cpuSteps := rfl
@[simp] theorem Ncore.setPpu_ppuSteps (x) : (m.setPpu x).ppuSteps = m.ppuSteps := rfl
@[simp] theorem Ncore.setPpu_apuSteps (x) : (m.setPpu x).apuSteps = m.apuSteps := rfl
@[simp] theorem Ncore.setPpu_nmiPending (x) : (m.setPpu x).nmiPending = m.nmiPending := rfl
@[simp] theorem Ncore.setPpu_irqLine (x) : (m.setPpu x).irqLine = m.irqLine := rfl
@[simp] theorem Ncore.setPpu_cpu (x) : (m.setPpu x).cpu = m.cpu := rfl
@[simp] theorem Ncore.setPpu_ppu (x) : (m.setPpu x).ppu = x := rfl
@[simp] theorem Ncore.setPpu_apu (x) : (m.setPpu x).apu = m.apu := rfl

@[simp] theorem Ncore.setApu_lowmem (x) : (m.setApu x).lowmem = m.lowmem := rfl
@[simp] theorem Ncore.setApu_ppuregs (x) : (m.setApu x).ppuregs = m.ppuregs := rfl
@[simp] theorem Ncore.setApu_apuregs (x) : (m.setApu x).apuregs = m.apuregs := rfl
@[simp] theorem Ncore.setApu_cart (x) : (m.setApu x).cart = m.cart := rfl
@[simp] theorem Ncore.setApu_cpuSteps (x) : (m.setApu x).cpuSteps = m.cpuSteps := rfl
@[simp] theorem Ncore.setApu_ppuSteps (x) : (m.setApu x).ppuSteps = m.ppuSteps := rfl
@[simp] theorem Ncore.setApu_apuSteps (x) : (m.setApu x).apuSteps = m.apuSteps := rfl
@[simp] theorem Ncore.setApu_nmiPending (x) : (m.setApu x).nmiPending = m.nmiPending := rfl
@[simp] theorem Ncore.setApu_irqLine (x) : (m.setApu x).irqLine = m.irqLine := rfl
@[simp] theorem Ncore.setApu_cpu (x) : (m.setApu x).cpu = m.cpu := rfl
@[simp] theorem Ncore.setApu_ppu (x) : (m.setApu x).ppu = m.ppu := rfl
@[simp] theorem Ncore.setApu_apu (x) : (m.setApu x).apu = x := rfl

end NcoreUpdates

section CartUpdates

variable (c : Cart)

@[simp] theorem Cart.setPrgBank_hdr (x) : (c.setPrgBank x).hdr = c.hdr := rfl
@[simp] theorem Cart.setPrgBank_rom (x) : (c.setPrgBank x).rom = c.rom := rfl
@[simp] theorem Cart.setPrgBank_vrom (x) : (c.setPrgBank x).vrom = c.vrom := rfl
@[simp] theorem Cart.setPrgBank_variant (x) : (c.setPrgBank x).variant = c.variant := rfl
@[simp] theorem Cart.setPrgBank_prgBank (x) : (c.setPrgBank x).prgBank = x := rfl
@[simp] theorem Cart.setPrgBank_chrBank (x) : (c.setPrgBank x).chrBank = c.chrBank := rfl
@[simp] theorem Cart.setPrgBank_chrRam (x) : (c.setPrgBank x).chrRam = c.chrRam := rfl
@[simp] theorem Cart.setPrgBank_prgRam (x) : (c.setPrgBank x).prgRam = c.prgRam := rfl

@[simp] theorem Cart.setChrBank_hdr (x) : (c.setChrBank x).hdr = c.hdr := rfl
@[simp] theorem Cart.setChrBank_rom (x) : (c.setChrBank x).rom = c.rom := rfl
@[simp] theorem Cart.setChrBank_vrom (x) : (c.setChrBank x).vrom = c.vrom := rfl
@[simp] theorem Cart.setChrBank_variant (x) : (c.setChrBank x).variant = c.variant := rfl
@[simp] theorem Cart.setChrBank_prgBank (x) : (c.setChrBank x).prgBank = c.prgBank := rfl
@[simp] theorem Cart.setChrBank_chrBank (x) : (c.setChrBank x).chrBank = x := rfl
@[simp] theorem Cart.setChrBank_chrRam (x) : (c.setChrBank x).chrRam = c.chrRam := rfl
@[simp] theorem Cart.setChrBank_prgRam (x) : (c.setChrBank x).prgRam = c.prgRam := rfl

@[simp] theorem Cart.setChrRam_hdr (x) : (c.setChrRam x).hdr = c.hdr := rfl
@[simp] theorem Cart.setChrRam_rom (x) : (c.setChrRam x).rom = c.rom := rfl
@[simp] theorem Cart.setChrRam_vrom (x) : (c.setChrRam x).vrom = c.vrom := rfl
@[simp] theorem Cart.setChrRam_variant (x) : (c.setChrRam x).variant = c.variant := rfl
@[simp] theorem Cart.setChrRam_prgBank (x) : (c.setChrRam x).prgBank = c.prgBank := rfl
@[simp] theorem Cart.setChrRam_chrBank (x) : (c.setChrRam x).chrBank = c.chrBank := rfl
@[simp] theorem Cart.setChrRam_chrRam (x) : (c.setChrRam x).chrRam = x := rfl
@[simp] theorem Cart.setChrRam_prgRam (x) : (c.setChrRam x).prgRam = c.prgRam := rfl

@[simp] theorem Cart.setPrgRam_hdr (x) : (c.setPrgRam x).hdr = c.hdr := rfl
@[simp] theorem Cart.setPrgRam_rom (x) : (c.setPrgRam x).rom = c.rom := rfl
@[simp] theorem Cart.setPrgRam_vrom (x) : (c.setPrgRam x).vrom = c.vrom := rfl
@[simp] theorem Cart.setPrgRam_variant (x) : (c.setPrgRam x).variant = c.variant := rfl
@[simp] theorem Cart.setPrgRam_prgBank (x) : (c.setPrgRam x).prgBank = c.prgBank := rfl
@[simp] theorem Cart.setPrgRam_chrBank (x) : (c.setPrgRam x).chrBank = c.chrBank := rfl
@[simp] theorem Cart.setPrgRam_chrRam (x) : (c.setPrgRam x).chrRam = c.chrRam := rfl
@[simp] theorem Cart.setPrgRam_prgRam (x) : (c.setPrgRam x).prgRam = x := rfl

end CartUpdates

@[simp] theorem setPc_pc (c : CpuState) (v : Addr) : (c.setPc v).pc = v := rfl
@[simp] theorem setPc_code (c : CpuState) (v : Addr) : (c.setPc v).code = c.code := rfl
@[simp] theorem setPc_setPc (c : CpuState) (v w : Addr) : (c.setPc v).setPc w = c.setPc w := rfl

@[simp] theorem reset_params : State.reset.params = Params.cfg0 := rfl
@[simp] theorem reset_turn : State.reset.turn = .host := rfl
@[simp] theorem reset_requests : State.reset.requests = [] := rfl
@[simp] theorem reset_result : State.reset.result = .nothing := rfl
theorem reset_life : State.reset.life = .live (Ncore.created State.reset.params State.reset.chips) := rfl

/-- `CFG0` meets the constraints of spec/00_scope.md R7. -/
theorem cfg0_wf : Params.cfg0.wf = true := by decide

end Sys2Proof.Machine
end

