-- ==== Sys2Proof/Laws/Ops.lean ====
section
/-! SUPPORT. What each shared operation can do, said once: how a meaning ends, the frame of a bus write and of a video-port
write, that both keep the invariant, and what running a collaborator's program can do. -/

namespace Sys2Proof.Machine

/-! ### How a meaning ends -/

theorem onLive_live {s : State} {m : Ncore} (h : s.life = .live m) (f : Ncore → Out) : onLive s f = f m := by
  simp only [onLive, h]

/-- If an operation that requires a live machine answers next, the machine is live and the operation's own part answers. -/
theorem onLive_next {s t : State} {f : Ncore → Out} (h : onLive s f = .next t) :
    ∃ m, s.life = .live m ∧ f m = .next t := by
  unfold onLive at h
  split at h
  · exact ⟨_, ‹_›, h⟩
  · cases h
  · cases h

theorem onRegion_live {r : Region} {a : Addr} {s : State} {m : Ncore} (h : s.life = .live m) (hr : regionOf a = r)
    (f : Ncore → Out) : onRegion r a s f = f m := by
  simp only [onRegion, onLive_live h, hr, if_true]

/-- If a `BUS` operation answers next, the machine is live, the address is of its region and its own part answers. -/
theorem onRegion_next {r : Region} {a : Addr} {s t : State} {f : Ncore → Out} (h : onRegion r a s f = .next t) :
    ∃ m, s.life = .live m ∧ regionOf a = r ∧ f m = .next t := by
  obtain ⟨m, hm, h⟩ := onLive_next h
  split at h
  · exact ⟨m, hm, ‹_›, h⟩
  · cases h

theorem reply_next {s t : State} {r : Result} : reply s r = .next t ↔ t = s.setResult r := by
  simp only [reply, Host.Outcome.next.injEq, eq_comm]

theorem commit_next {s t : State} {m : Ncore} {r : Result} :
    commit s m r = .next t ↔ t = (s.setLife (.live m)).setResult r := by
  simp only [commit, Host.Outcome.next.injEq, eq_comm]

/-! ### The frame of a bus write -/

/-- A bus write does one of five things: nothing, one store into an array, one store into save RAM, or a bank-control
side effect. -/
theorem memWrite_cases (p : Params) (m : Ncore) (a : Addr) (d : Byte) :
    memWrite p m a d = m ∨
    (regionOf a = .ram ∧ memWrite p m a d = m.setLowmem (Memory.write p.resetFill m.lowmem (ramIndex a) d)) ∨
    (regionOf a = .ppu ∧ memWrite p m a d = m.setPpuregs (Memory.write p.resetFill m.ppuregs (ppuIndex a) d)) ∨
    (regionOf a = .apu ∧ memWrite p m a d = m.setApuregs (Memory.write p.resetFill m.apuregs (apuIndex a) d)) ∨
    (∃ c, m.cart = some c ∧ regionOf a = .prg ∧ memWrite p m a d = m.setCart (some (onWrite c a d))) ∨
    (∃ c ram, m.cart = some c ∧ regionOf a = .sram ∧ c.hdr.hasPrgRam = true ∧ c.prgRam = some ram ∧
      memWrite p m a d =
        m.setCart (some (c.setPrgRam (some (Memory.write p.resetFill ram (sramIndex p a) d))))) := by
  cases hr : regionOf a
  case ram => exact .inr (.inl ⟨rfl, by simp only [memWrite, hr, writeRam]⟩)
  case ppu => exact .inr (.inr (.inl ⟨rfl, by simp only [memWrite, hr, writePpu, storePpu]⟩))
  case apu => exact .inr (.inr (.inr (.inl ⟨rfl, by simp only [memWrite, hr, writeApu, storeApu]⟩)))
  case iox => exact .inl (by simp only [memWrite, hr, writeIox])
  case exp => exact .inl (by simp only [memWrite, hr, writeExp])
  case prg =>
    cases hc : m.cart with
    | none => exact .inl (by simp only [memWrite, hr, writePrg, hc])
    | some c => exact .inr (.inr (.inr (.inr (.inl ⟨c, rfl, rfl, by simp only [memWrite, hr, writePrg, hc]⟩))))
  case sram =>
    cases hc : m.cart with
    | none => exact .inl (by simp only [memWrite, hr, writeSram, hc])
    | some c =>
      by_cases hs : c.hdr.hasPrgRam = true
      · cases hp : c.prgRam with
        | none => exact .inl (by simp only [memWrite, hr, writeSram, hc, hs, hp, if_true])
        | some ram =>
          exact .inr (.inr (.inr (.inr (.inr ⟨c, ram, rfl, rfl, hs, hp,
            by simp only [memWrite, hr, writeSram, hc, hs, hp, if_true]⟩))))
      · exact .inl (by simp only [memWrite, hr, writeSram, hc, hs]; rfl)

/-- What the block keeps outside the arrays and the record. -/
def sameOutside (m m' : Ncore) : Prop :=
  m'.cpuSteps = m.cpuSteps ∧ m'.ppuSteps = m.ppuSteps ∧ m'.apuSteps = m.apuSteps ∧ m'.nmiPending = m.nmiPending ∧
  m'.irqLine = m.irqLine ∧ m'.cpu = m.cpu ∧ m'.ppu = m.ppu ∧ m'.apu = m.apu

theorem sameOutside_refl (m : Ncore) : sameOutside m m := ⟨rfl, rfl, rfl, rfl, rfl, rfl, rfl, rfl⟩

theorem sameOutside_trans {m m' m'' : Ncore} (h : sameOutside m m') (h' : sameOutside m' m'') : sameOutside m m'' := by
  obtain ⟨a1, a2, a3, a4, a5, a6, a7, a8⟩ := h
  obtain ⟨b1, b2, b3, b4, b5, b6, b7, b8⟩ := h'
  exact ⟨b1.trans a1, b2.trans a2, b3.trans a3, b4.trans a4, b5.trans a5, b6.trans a6, b7.trans a7, b8.trans a8⟩

theorem memWrite_sameOutside (p : Params) (m : Ncore) (a : Addr) (d : Byte) : sameOutside m (memWrite p m a d) := by
  rcases memWrite_cases p m a d with h | ⟨-, h⟩ | ⟨-, h⟩ | ⟨-, h⟩ | ⟨c, -, -, h⟩ | ⟨c, r, -, -, -, -, h⟩ <;>
    rw [h] <;> exact sameOutside_refl _

@[simp] theorem onWrite_fixedPart (c : Cart) (a : Addr) (d : Byte) : (onWrite c a d).fixedPart = c.fixedPart := by
  unfold onWrite; split <;> (try split) <;> rfl

@[simp] theorem onWrite_chrRam (c : Cart) (a : Addr) (d : Byte) : (onWrite c a d).chrRam = c.chrRam := by
  unfold onWrite; split <;> (try split) <;> rfl

@[simp] theorem onWrite_prgRam (c : Cart) (a : Addr) (d : Byte) : (onWrite c a d).prgRam = c.prgRam := by
  unfold onWrite; split <;> (try split) <;> rfl

/-- A bus write never changes what a `LOAD` fixed. -/
theorem memWrite_fixedPart (p : Params) (m : Ncore) (a : Addr) (d : Byte) :
    (memWrite p m a d).cart.map Cart.fixedPart = m.cart.map Cart.fixedPart := by
  rcases memWrite_cases p m a d with h | ⟨-, h⟩ | ⟨-, h⟩ | ⟨-, h⟩ | ⟨c, hc, -, h⟩ | ⟨c, r, hc, -, -, -, h⟩ <;> rw [h]
  · rfl
  · rfl
  · rfl
  · simp [hc]
  · simp [hc, Cart.fixedPart]

/-! ### The frame of a video-port write -/

/-- A video-port write does nothing, or one store into `chr_ram`. -/
theorem chrWrite_cases (p : Params) (m : Ncore) (v : PatAddr) (d : Byte) :
    chrWrite p m v d = m ∨
    (∃ c ram, m.cart = some c ∧ c.hdr.chrBankCount = 0#8 ∧ c.chrRam = some ram ∧
      chrWrite p m v d =
        m.setCart (some (c.setChrRam (some (Memory.write p.resetFill ram (translateChr p c v) d))))) := by
  cases hc : m.cart with
  | none => exact .inl (by simp only [chrWrite, hc])
  | some c =>
    by_cases h0 : c.hdr.chrBankCount = 0#8
    · cases hr : c.chrRam with
      | none => exact .inl (by simp only [chrWrite, hc, h0, hr, if_true])
      | some ram => exact .inr ⟨c, ram, rfl, h0, hr, by simp only [chrWrite, hc, h0, hr, if_true]⟩
    · exact .inl (by simp only [chrWrite, hc, h0, if_false])

theorem chrWrite_sameOutside (p : Params) (m : Ncore) (v : PatAddr) (d : Byte) : sameOutside m (chrWrite p m v d) := by
  rcases chrWrite_cases p m v d with h | ⟨c, r, -, -, -, h⟩ <;> rw [h] <;> exact sameOutside_refl _

/-- A video-port write never changes what a `LOAD` fixed. -/
theorem chrWrite_fixedPart (p : Params) (m : Ncore) (v : PatAddr) (d : Byte) :
    (chrWrite p m v d).cart.map Cart.fixedPart = m.cart.map Cart.fixedPart := by
  rcases chrWrite_cases p m v d with h | ⟨c, r, hc, -, -, h⟩ <;> rw [h]
  simp [hc, Cart.fixedPart]

/-! ### The invariant -/

/-- The invariant of a record, its parts named. -/
theorem cart_wf_iff {p : Params} {c : Cart} : Cart.wf p c = true ↔
    c.rom.length = romSize c ∧ c.vrom.length = vromSize c ∧ mapperConstruct p c.hdr.mapperId = some c.variant ∧
    c.chrRam.isSome = decide (c.hdr.chrBankCount = 0#8) ∧ c.prgRam.isSome = c.hdr.hasPrgRam ∧
    (∀ r, c.chrRam = some r → Memory.wf p.resetFill r = true ∧ Memory.below p.chrRamSize r = true) ∧
    (∀ r, c.prgRam = some r → Memory.wf p.resetFill r = true ∧ Memory.below p.prgRamSize r = true) := by
  simp only [Cart.wf, Bool.and_eq_true, decide_eq_true_eq, beq_iff_eq, and_assoc, Option.all_eq_true]

/-- The invariant of a live machine, its parts named. -/
theorem ncore_wf_iff {p : Params} {m : Ncore} : Ncore.wf p m = true ↔
    Memory.wf p.resetFill m.lowmem = true ∧ Memory.below 0x800 m.lowmem = true ∧
    Memory.wf p.resetFill m.ppuregs = true ∧ Memory.below 8 m.ppuregs = true ∧
    Memory.wf p.resetFill m.apuregs = true ∧ Memory.below 24 m.apuregs = true ∧
    m.cpuSteps < 2 ^ p.counterBits ∧ m.ppuSteps < 2 ^ p.counterBits ∧ m.apuSteps < 2 ^ p.counterBits ∧
    (∀ c, m.cart = some c → Cart.wf p c = true) := by
  simp only [Ncore.wf, Bool.and_eq_true, decide_eq_true_eq, and_assoc, Option.all_eq_true]

theorem state_wf_live {s : State} {m : Ncore} (h : s.life = .live m) :
    s.wf = true ↔ s.params.wf = true ∧ Ncore.wf s.params m = true := by
  simp only [State.wf, h, Bool.and_eq_true]

theorem onWrite_wf {p : Params} {c : Cart} (h : Cart.wf p c = true) (a : Addr) (d : Byte) :
    Cart.wf p (onWrite c a d) = true := by
  unfold onWrite
  split
  · exact h
  · split
    · exact h
    · exact h
  · split
    · exact h
    · exact h

theorem setPrgRam_wf {p : Params} {c : Cart} (h : Cart.wf p c = true) {ram ram' : Memory} (hr : c.prgRam = some ram)
    (hw : Memory.wf p.resetFill ram' = true) (hb : Memory.below p.prgRamSize ram' = true) :
    Cart.wf p (c.setPrgRam (some ram')) = true := by
  rw [cart_wf_iff] at h ⊢
  obtain ⟨h1, h2, h3, h4, h5, h6, -⟩ := h
  refine ⟨h1, h2, h3, h4, ?_, h6, fun r hr' => ?_⟩
  · rw [hr] at h5; simpa using h5
  · simp only [Cart.setPrgRam_prgRam, Option.some.injEq] at hr'
    exact hr' ▸ ⟨hw, hb⟩

theorem setChrRam_wf {p : Params} {c : Cart} (h : Cart.wf p c = true) {ram ram' : Memory} (hr : c.chrRam = some ram)
    (hw : Memory.wf p.resetFill ram' = true) (hb : Memory.below p.chrRamSize ram' = true) :
    Cart.wf p (c.setChrRam (some ram')) = true := by
  rw [cart_wf_iff] at h ⊢
  obtain ⟨h1, h2, h3, h4, h5, -, h7⟩ := h
  refine ⟨h1, h2, h3, ?_, h5, fun r hr' => ?_, h7⟩
  · rw [hr] at h4; exact h4
  · simp only [Cart.setChrRam_chrRam, Option.some.injEq] at hr'
    exact hr' ▸ ⟨hw, hb⟩

theorem setCart_wf {p : Params} {m : Ncore} (h : Ncore.wf p m = true) {c : Cart} (hc : Cart.wf p c = true) :
    Ncore.wf p (m.setCart (some c)) = true := by
  rw [ncore_wf_iff] at h ⊢
  obtain ⟨h1, h2, h3, h4, h5, h6, h7, h8, h9, -⟩ := h
  refine ⟨h1, h2, h3, h4, h5, h6, h7, h8, h9, fun c' hc' => ?_⟩
  simp only [Ncore.setCart_cart, Option.some.injEq] at hc'
  exact hc' ▸ hc

theorem storePpu_wf {p : Params} {m : Ncore} (h : Ncore.wf p m = true) {i : Nat} (hi : i < 8) (d : Byte) :
    Ncore.wf p (storePpu p m i d) = true := by
  rw [ncore_wf_iff] at h ⊢
  obtain ⟨h1, h2, h3, h4, h5, h6, h7, h8, h9, h10⟩ := h
  exact ⟨h1, h2, write_wf _ h3 i d, write_below _ h4 d hi, h5, h6, h7, h8, h9, h10⟩

theorem storeApu_wf {p : Params} {m : Ncore} (h : Ncore.wf p m = true) {i : Nat} (hi : i < 24) (d : Byte) :
    Ncore.wf p (storeApu p m i d) = true := by
  rw [ncore_wf_iff] at h ⊢
  obtain ⟨h1, h2, h3, h4, h5, h6, h7, h8, h9, h10⟩ := h
  exact ⟨h1, h2, h3, h4, write_wf _ h5 i d, write_below _ h6 d hi, h7, h8, h9, h10⟩

/-- A bus write keeps the invariant. -/
theorem memWrite_wf {p : Params} (hp : p.wf = true) {m : Ncore} (h : Ncore.wf p m = true) (a : Addr) (d : Byte) :
    Ncore.wf p (memWrite p m a d) = true := by
  rcases memWrite_cases p m a d with e | ⟨-, e⟩ | ⟨-, e⟩ | ⟨hr, e⟩ | ⟨c, hc, -, e⟩ | ⟨c, ram, hc, -, -, hr, e⟩ <;> rw [e]
  · exact h
  · rw [ncore_wf_iff] at h ⊢
    obtain ⟨h1, h2, h3, h4, h5, h6, h7, h8, h9, h10⟩ := h
    exact ⟨write_wf _ h1 _ d, write_below _ h2 d (ramIndex_lt a), h3, h4, h5, h6, h7, h8, h9, h10⟩
  · exact storePpu_wf h (ppuIndex_lt a) d
  · exact storeApu_wf h (apuIndex_lt hr) d
  · exact setCart_wf h (onWrite_wf ((ncore_wf_iff.mp h).2.2.2.2.2.2.2.2.2 c hc) a d)
  · have hcw := (ncore_wf_iff.mp h).2.2.2.2.2.2.2.2.2 c hc
    have hram := (cart_wf_iff.mp hcw).2.2.2.2.2.2 ram hr
    exact setCart_wf h (setPrgRam_wf hcw hr (write_wf _ hram.1 _ d)
      (write_below _ hram.2 d (sramIndex_lt (wf_prgRamSize hp) a)))

/-- A video-port write keeps the invariant. -/
theorem chrWrite_wf {p : Params} (hp : p.wf = true) {m : Ncore} (h : Ncore.wf p m = true) (v : PatAddr) (d : Byte) :
    Ncore.wf p (chrWrite p m v d) = true := by
  rcases chrWrite_cases p m v d with e | ⟨c, ram, hc, h0, hr, e⟩ <;> rw [e]
  · exact h
  · have hcw := (ncore_wf_iff.mp h).2.2.2.2.2.2.2.2.2 c hc
    have hram := (cart_wf_iff.mp hcw).2.2.2.2.2.1 ram hr
    have hlt : translateChr p c v < p.chrRamSize := by
      rw [translateChr_chrRam h0]
      exact Nat.mod_lt _ (wf_chrRamSize hp)
    exact setCart_wf h (setChrRam_wf hcw hr (write_wf _ hram.1 _ d) (write_below _ hram.2 d hlt))

/-! ### Running a program -/

/-- The induction over a CPU program, packaged once: a relation that is reflexive, transitive and holds of every bus write
holds between the machine before and after a run. -/
theorem runBus_rel {p : Params} (rel : Ncore → Ncore → Prop) (hrefl : ∀ m, rel m m)
    (htrans : ∀ m m' m'', rel m m' → rel m' m'' → rel m m'') (hwrite : ∀ m a d, rel m (memWrite p m a d))
    {R : Type} {n : Nat} (prog : BusProg R n) (m : Ncore) : rel m (runBus p prog m).2 := by
  induction prog generalizing m with
  | done r => exact hrefl m
  | read a k ih => exact ih _ m
  | write a d k ih => exact htrans _ _ _ (hwrite m a d) (ih _)

/-- The induction over a video-chip program, packaged once. -/
theorem runPpu_rel {p : Params} (rel : Ncore → Ncore → Prop) (hrefl : ∀ m, rel m m)
    (htrans : ∀ m m' m'', rel m m' → rel m' m'' → rel m m'') (hreg : ∀ m (i : Fin 8) d, rel m (storePpu p m i.val d))
    (hchr : ∀ m v d, rel m (chrWrite p m v d)) {R : Type} {n : Nat} (prog : PpuProg R n) (m : Ncore) :
    rel m (runPpu p prog m).2 := by
  induction prog generalizing m with
  | done r => exact hrefl m
  | regRead i k ih => exact ih _ m
  | regWrite i d k ih => exact htrans _ _ _ (hreg m i d) (ih _)
  | chrRead v k ih => exact ih _ m
  | chrWrite v d k ih => exact htrans _ _ _ (hchr m v d) (ih _)

/-- The induction over an audio-chip program, packaged once. -/
theorem runApu_rel {p : Params} (rel : Ncore → Ncore → Prop) (hrefl : ∀ m, rel m m)
    (htrans : ∀ m m' m'', rel m m' → rel m' m'' → rel m m'') (hreg : ∀ m (i : Fin 24) d, rel m (storeApu p m i.val d))
    {R : Type} {n : Nat} (prog : ApuProg R n) (m : Ncore) : rel m (runApu p prog m).2 := by
  induction prog generalizing m with
  | done r => exact hrefl m
  | regRead i k ih => exact ih _ m
  | regWrite i d k ih => exact htrans _ _ _ (hreg m i d) (ih _)

/-- What a program always ends with, its run ends with. -/
theorem runBus_always (p : Params) {R : Type} {P : R → Prop} {n : Nat} (prog : BusProg R n) (h : prog.Always P)
    (m : Ncore) : P (runBus p prog m).1 := by
  induction prog generalizing m with
  | done r => exact h
  | read a k ih => exact ih _ (h _) m
  | write a d k ih => exact ih h _

end Sys2Proof.Machine
end

