-- ==== Sys2Proof/Laws/Exec.lean ====
section
/-! SUPPORT. What an operation can do, said once: if `exec` answers next, then one of eight things happened; what a step
can do; when the parser
accepts an image, and that the record it builds meets the invariant. -/

namespace Sys2Proof.Machine

/-- What an operation that answers next has done: (1) returned something and changed nothing, (2) one bus write, (3) one
video-port write, (4) the reset procedure, (5) installed a record, (6) a tick, (7) created or (8) ended the machine. -/
theorem exec_cases {i : Instr} {s t : State} (h : exec i s = .next t) :
    (∃ m r, s.life = .live m ∧ i ≠ .create ∧ i ≠ .destroy ∧ (∀ img ok, i = .load img ok → ∃ e, r = .loadError e) ∧
      t = s.setResult r) ∨
    (∃ m a d, s.life = .live m ∧ (i = writeOp (regionOf a) a d ∨ i = .writemem a d) ∧
      t = (s.setLife (.live (memWrite s.params m a d))).setResult .nothing) ∨
    (∃ m v d, s.life = .live m ∧ i = .chrWr v d ∧
      t = (s.setLife (.live (chrWrite s.params m v d))).setResult .nothing) ∨
    (∃ m, s.life = .live m ∧ i = .reset ∧
      t = (s.setLife (.live (resetProcedure s.params s.chips m))).setResult .nothing) ∨
    (∃ m img ok c, s.life = .live m ∧ i = .load img ok ∧ parseImage s.params img ok = .ok c ∧
      t = (s.setLife (.live (m.setCart (some c)))).setResult .loadOk) ∨
    (∃ m, s.life = .live m ∧ i = .tick ∧ t = (s.setLife (.live (tick s.params s.chips m))).setResult .nothing) ∨
    (s.life = .absent ∧ i = .create ∧
      t = (s.setLife (.live (resetProcedure s.params s.chips (poweredOn s.chips)))).setResult .nothing) ∨
    (∃ m, s.life = .live m ∧ i = .destroy ∧ t = (s.setLife .dead).setResult .nothing) := by
  have read : ∀ {r : Region} {a : Addr} {f : Ncore → Result}, i ≠ .create → i ≠ .destroy →
      (∀ img ok, i ≠ .load img ok) → onRegion r a s (fun m => reply s (f m)) = .next t →
      ∃ m r, s.life = .live m ∧ i ≠ .create ∧ i ≠ .destroy ∧
        (∀ img ok, i = .load img ok → ∃ e, r = .loadError e) ∧ t = s.setResult r := by
    intro r a f h1 h2 h3 h
    obtain ⟨m, hm, -, h⟩ := onRegion_next h
    exact ⟨m, _, hm, h1, h2, fun img ok hi => absurd hi (h3 img ok), reply_next.mp h⟩
  have write : ∀ {r : Region} {a : Addr} {d : Byte} {f : Ncore → Ncore}, i = writeOp r a d →
      (∀ m, regionOf a = r → f m = memWrite s.params m a d) →
      onRegion r a s (fun m => commit s (f m) .nothing) = .next t →
      ∃ m a d, s.life = .live m ∧ (i = writeOp (regionOf a) a d ∨ i = .writemem a d) ∧
        t = (s.setLife (.live (memWrite s.params m a d))).setResult .nothing := by
    intro r a d f hi hf h
    obtain ⟨m, hm, hr, h⟩ := onRegion_next h
    exact ⟨m, a, d, hm, .inl (hr ▸ hi), by rw [← hf m hr]; exact commit_next.mp h⟩
  cases i
  case rdRam a => exact .inl (read nofun nofun nofun h)
  case rdPpu a => exact .inl (read nofun nofun nofun h)
  case rdIox a => exact .inl (read nofun nofun nofun h)
  case rdApu a => exact .inl (read nofun nofun nofun h)
  case rdPrg a => exact .inl (read nofun nofun nofun h)
  case rdSram a => exact .inl (read nofun nofun nofun h)
  case rdExp a => exact .inl (read nofun nofun nofun h)
  case wrRam a d => exact .inr (.inl (write rfl (fun m hr => by simp only [memWrite, hr]) h))
  case wrPpu a d => exact .inr (.inl (write rfl (fun m hr => by simp only [memWrite, hr]) h))
  case wrIox a d => exact .inr (.inl (write rfl (fun m hr => by simp only [memWrite, hr]) h))
  case wrApu a d => exact .inr (.inl (write rfl (fun m hr => by simp only [memWrite, hr]) h))
  case wrPrg a d => exact .inr (.inl (write rfl (fun m hr => by simp only [memWrite, hr]) h))
  case wrSram a d => exact .inr (.inl (write rfl (fun m hr => by simp only [memWrite, hr]) h))
  case wrExp a d => exact .inr (.inl (write rfl (fun m hr => by simp only [memWrite, hr]) h))
  case chrRd v =>
    obtain ⟨m, hm, h⟩ := onLive_next h
    exact .inl ⟨m, _, hm, nofun, nofun, nofun, reply_next.mp h⟩
  case chrWr v d =>
    obtain ⟨m, hm, h⟩ := onLive_next h
    exact .inr (.inr (.inl ⟨m, v, d, hm, rfl, commit_next.mp h⟩))
  case create =>
    simp only [exec, execCreate] at h
    split at h
    · exact .inr (.inr (.inr (.inr (.inr (.inr (.inl ⟨‹_›, rfl, commit_next.mp h⟩))))))
    · cases h
    · cases h
  case reset =>
    obtain ⟨m, hm, h⟩ := onLive_next h
    exact .inr (.inr (.inr (.inl ⟨m, hm, rfl, commit_next.mp h⟩)))
  case load img ok =>
    obtain ⟨m, hm, h⟩ := onLive_next h
    split at h
    · exact .inr (.inr (.inr (.inr (.inl ⟨m, img, ok, _, hm, rfl, ‹_›, commit_next.mp h⟩))))
    · exact .inl ⟨m, _, hm, nofun, nofun, fun _ _ _ => ⟨_, rfl⟩, reply_next.mp h⟩
  case tick =>
    obtain ⟨m, hm, h⟩ := onLive_next h
    exact .inr (.inr (.inr (.inr (.inr (.inl ⟨m, hm, rfl, commit_next.mp h⟩)))))
  case inspect =>
    obtain ⟨m, hm, h⟩ := onLive_next h
    exact .inl ⟨m, _, hm, nofun, nofun, nofun, reply_next.mp h⟩
  case readmem a =>
    obtain ⟨m, hm, h⟩ := onLive_next h
    exact .inl ⟨m, _, hm, nofun, nofun, nofun, reply_next.mp h⟩
  case writemem a d =>
    obtain ⟨m, hm, h⟩ := onLive_next h
    exact .inr (.inl ⟨m, a, d, hm, .inr rfl, commit_next.mp h⟩)
  case destroy =>
    obtain ⟨m, hm, h⟩ := onLive_next h
    exact .inr (.inr (.inr (.inr (.inr (.inr (.inr ⟨m, hm, rfl, by simpa [eq_comm] using h⟩))))))

/-- Where the operations of a step live: none changes the parameters, whose turn it is or the waiting requests. -/
theorem exec_keeps {i : Instr} {s t : State} (h : exec i s = .next t) :
    t.params = s.params ∧ t.turn = s.turn ∧ t.requests = s.requests := by
  rcases exec_cases h with ⟨_, _, _, _, _, _, rfl⟩ | ⟨_, _, _, _, _, rfl⟩ | ⟨_, _, _, _, _, rfl⟩ | ⟨_, _, _, rfl⟩ |
    ⟨_, _, _, _, _, _, _, rfl⟩ | ⟨_, _, _, rfl⟩ | ⟨_, _, rfl⟩ | ⟨_, _, _, rfl⟩ <;> simp

/-! ### The step -/

/-- What `fetch` offers of a queue that is not empty. -/
theorem fetch_cons (a : Agent) (q : Request) (rest : List Request) : fetch a (q :: rest) =
    if mayIssue a q.port then
      match decode q.port q.bytes with
      | .ok i => .operation i rest
      | .error e => .malformed e
    else .barred q.port := rfl

/-- All that a step that answers next can have done: nothing, or the operation of the first request, at a port that the agent
in turn holds. -/
theorem step_cases {s t : State} (h : step s = .next t) :
    (s.requests = [] ∧ t = s) ∨
    ∃ q rest i, s.requests = q :: rest ∧ mayIssue s.turn q.port = true ∧ decode q.port q.bytes = .ok i ∧
      exec i (s.setRequests rest) = .next t := by
  cases hq : s.requests with
  | nil =>
    simp only [step, hq, fetch] at h
    cases h
    exact .inl ⟨rfl, rfl⟩
  | cons q rest =>
    simp only [step, hq, fetch_cons] at h
    cases hm : mayIssue s.turn q.port with
    | false => simp [hm] at h
    | true =>
      cases hd : decode q.port q.bytes with
      | error e => simp [hm, hd] at h
      | ok i => exact .inr ⟨q, rest, i, rfl, hm, hd, by simpa [hm, hd] using h⟩

/-! ### `LOAD` -/

/-- The images the parser accepts, and the record it builds of them. -/
theorem parseImage_ok {p : Params} {s : List Byte} {ok : Bool} {c : Cart} : parseImage p s ok = .ok c ↔
    4 ≤ s.length ∧ s.take 4 = p.magic.toList ∧ 16 ≤ s.length ∧ ok = true ∧
    16 + imageRomSize s + imageVromSize s ≤ s.length ∧
    ∃ v, mapperConstruct p (imageMapperId s) = some v ∧ c = imageCart p s v := by
  unfold parseImage
  split_ifs with h1 h2 h3 h4 h5
  · simp only [false_iff]
    rintro ⟨a, b, -⟩
    rcases h1 with h1 | h1
    · omega
    · exact h1 b
  · simp only [false_iff]; omega
  · simp only [false_iff]; simp [h3]
  · simp only [false_iff]; omega
  · simp only [false_iff]; omega
  · push Not at h1
    cases hv : mapperConstruct p (imageMapperId s) with
    | none => simp
    | some v =>
      simp only [Except.ok.injEq, Option.some.injEq]
      constructor
      · rintro rfl; exact ⟨h1.1, h1.2, by omega, by simpa using h3, by omega, v, rfl, rfl⟩
      · rintro ⟨-, -, -, -, -, v', rfl, rfl⟩; rfl

/-- The record of an accepted image meets the invariant. -/
theorem parseImage_wf {p : Params} {s : List Byte} {ok : Bool} {c : Cart} (h : parseImage p s ok = .ok c) :
    Cart.wf p c = true := by
  obtain ⟨-, -, -, -, hl, v, hv, rfl⟩ := parseImage_ok.mp h
  rw [cart_wf_iff]
  refine ⟨?_, ?_, hv, ?_, ?_, fun r hr => ?_, fun r hr => ?_⟩
  · simp only [imageCart, imageRom, List.length_take, List.length_drop, romSize, imageHeader]
    unfold imageRomSize at *
    omega
  · simp only [imageCart, imageVrom, List.length_take, List.length_drop, vromSize, imageHeader]
    unfold imageVromSize imageRomSize at *
    omega
  · by_cases h0 : imageByte s 5 = 0#8 <;> simp [imageCart, imageHeader, h0]
  · cases h0 : imageHasPrgRam s <;> simp [imageCart, imageHeader, h0]
  · by_cases h0 : imageByte s 5 = 0#8 <;> simp [imageCart, h0] at hr
    subst hr; exact ⟨rfl, rfl⟩
  · cases h0 : imageHasPrgRam s <;> simp [imageCart, h0] at hr
    subst hr; exact ⟨rfl, rfl⟩

end Sys2Proof.Machine
end

