-- ==== Sys2Proof/Laws/PerInstr.lean ====
section
/-! SUPPORT. For every operation: the word the encoder writes has the mask and match of the operation's own row in
spec/opcode_table.json. -/

namespace Sys2Proof.Laws.WordMatchesRow

open Sys2Proof.Machine

/-- The mask and match of the row of an operation, over the word of its format. -/
def Statement : Instr → Prop
  | .rdRam a => regionOf a = .ram → busWord false a &&& 0x1E000#17 = 0x00000#17
  | .rdPpu a => regionOf a = .ppu → busWord false a &&& 0x1E000#17 = 0x02000#17
  | .rdIox a => regionOf a = .iox → busWord false a &&& 0x1FFF8#17 = 0x04018#17
  | .rdApu a => regionOf a = .apu → busWord false a &&& 0x1FFE0#17 = 0x04000#17
  | .rdPrg a => regionOf a = .prg → busWord false a &&& 0x18000#17 = 0x08000#17
  | .rdSram a => regionOf a = .sram → busWord false a &&& 0x1E000#17 = 0x06000#17
  | .rdExp a => regionOf a = .exp → busWord false a &&& 0x10000#17 = 0x00000#17
  | .wrRam a _ => regionOf a = .ram → busWord true a &&& 0x1E000#17 = 0x10000#17
  | .wrPpu a _ => regionOf a = .ppu → busWord true a &&& 0x1E000#17 = 0x12000#17
  | .wrIox a _ => regionOf a = .iox → busWord true a &&& 0x1FFF8#17 = 0x14018#17
  | .wrApu a _ => regionOf a = .apu → busWord true a &&& 0x1FFE0#17 = 0x14000#17
  | .wrPrg a _ => regionOf a = .prg → busWord true a &&& 0x18000#17 = 0x18000#17
  | .wrSram a _ => regionOf a = .sram → busWord true a &&& 0x1E000#17 = 0x16000#17
  | .wrExp a _ => regionOf a = .exp → busWord true a &&& 0x10000#17 = 0x10000#17
  | .chrRd v => chrWord false v &&& 0x2000#14 = 0x0000#14
  | .chrWr v _ => chrWord true v &&& 0x2000#14 = 0x2000#14
  | .create => (encode .create).head? = some 0#8
  | .reset => (encode .reset).head? = some 1#8
  | .load image ok => (encode (.load image ok)).head? = some 2#8
  | .tick => (encode .tick).head? = some 3#8
  | .inspect => (encode .inspect).head? = some 4#8
  | .readmem a => (encode (.readmem a)).head? = some 5#8
  | .writemem a d => (encode (.writemem a d)).head? = some 6#8
  | .destroy => (encode .destroy).head? = some 7#8

theorem rdRam (a : Addr) : Statement (.rdRam a) := fun h => by
  have hl := a.isLt
  simp only [regionOf_ram, BitVec.lt_def, BitVec.toNat_ofNat] at h
  exact (and_mask_eq 13 (by rfl)).mpr (by rw [busWord_toNat]; simp only [BitVec.toNat_ofNat]; simp; omega)

theorem rdPpu (a : Addr) : Statement (.rdPpu a) := fun h => by
  have hl := a.isLt
  simp only [regionOf_ppu, BitVec.lt_def, BitVec.le_def, BitVec.toNat_ofNat] at h
  exact (and_mask_eq 13 (by rfl)).mpr (by rw [busWord_toNat]; simp only [BitVec.toNat_ofNat]; simp; omega)

theorem rdIox (a : Addr) : Statement (.rdIox a) := fun h => by
  have hl := a.isLt
  simp only [regionOf_iox, BitVec.lt_def, BitVec.le_def, BitVec.toNat_ofNat] at h
  exact (and_mask_eq 3 (by rfl)).mpr (by rw [busWord_toNat]; simp only [BitVec.toNat_ofNat]; simp; omega)

theorem rdApu (a : Addr) : Statement (.rdApu a) := fun h => by
  have hl := a.isLt
  simp only [regionOf_apu, BitVec.lt_def, BitVec.le_def, BitVec.toNat_ofNat] at h
  exact (and_mask_eq 5 (by rfl)).mpr (by rw [busWord_toNat]; simp only [BitVec.toNat_ofNat]; simp; omega)

theorem rdPrg (a : Addr) : Statement (.rdPrg a) := fun h => by
  have hl := a.isLt
  simp only [regionOf_prg, BitVec.le_def, BitVec.toNat_ofNat] at h
  exact (and_mask_eq 15 (by rfl)).mpr (by rw [busWord_toNat]; simp only [BitVec.toNat_ofNat]; simp; omega)

theorem rdSram (a : Addr) : Statement (.rdSram a) := fun h => by
  have hl := a.isLt
  simp only [regionOf_sram, BitVec.lt_def, BitVec.le_def, BitVec.toNat_ofNat] at h
  exact (and_mask_eq 13 (by rfl)).mpr (by rw [busWord_toNat]; simp only [BitVec.toNat_ofNat]; simp; omega)

theorem rdExp (a : Addr) : Statement (.rdExp a) := fun h => by
  have hl := a.isLt
  simp only [regionOf_exp, BitVec.lt_def, BitVec.le_def, BitVec.toNat_ofNat] at h
  exact (and_mask_eq 16 (by rfl)).mpr (by rw [busWord_toNat]; simp only [BitVec.toNat_ofNat]; simp; omega)

theorem wrRam (a : Addr) (d : Byte) : Statement (.wrRam a d) := fun h => by
  have hl := a.isLt
  simp only [regionOf_ram, BitVec.lt_def, BitVec.toNat_ofNat] at h
  exact (and_mask_eq 13 (by rfl)).mpr (by rw [busWord_toNat]; simp only [BitVec.toNat_ofNat]; simp; omega)

theorem wrPpu (a : Addr) (d : Byte) : Statement (.wrPpu a d) := fun h => by
  have hl := a.isLt
  simp only [regionOf_ppu, BitVec.lt_def, BitVec.le_def, BitVec.toNat_ofNat] at h
  exact (and_mask_eq 13 (by rfl)).mpr (by rw [busWord_toNat]; simp only [BitVec.toNat_ofNat]; simp; omega)

theorem wrIox (a : Addr) (d : Byte) : Statement (.wrIox a d) := fun h => by
  have hl := a.isLt
  simp only [regionOf_iox, BitVec.lt_def, BitVec.le_def, BitVec.toNat_ofNat] at h
  exact (and_mask_eq 3 (by rfl)).mpr (by rw [busWord_toNat]; simp only [BitVec.toNat_ofNat]; simp; omega)

theorem wrApu (a : Addr) (d : Byte) : Statement (.wrApu a d) := fun h => by
  have hl := a.isLt
  simp only [regionOf_apu, BitVec.lt_def, BitVec.le_def, BitVec.toNat_ofNat] at h
  exact (and_mask_eq 5 (by rfl)).mpr (by rw [busWord_toNat]; simp only [BitVec.toNat_ofNat]; simp; omega)

theorem wrPrg (a : Addr) (d : Byte) : Statement (.wrPrg a d) := fun h => by
  have hl := a.isLt
  simp only [regionOf_prg, BitVec.le_def, BitVec.toNat_ofNat] at h
  exact (and_mask_eq 15 (by rfl)).mpr (by rw [busWord_toNat]; simp only [BitVec.toNat_ofNat]; simp; omega)

theorem wrSram (a : Addr) (d : Byte) : Statement (.wrSram a d) := fun h => by
  have hl := a.isLt
  simp only [regionOf_sram, BitVec.lt_def, BitVec.le_def, BitVec.toNat_ofNat] at h
  exact (and_mask_eq 13 (by rfl)).mpr (by rw [busWord_toNat]; simp only [BitVec.toNat_ofNat]; simp; omega)

theorem wrExp (a : Addr) (d : Byte) : Statement (.wrExp a d) := fun h => by
  have hl := a.isLt
  simp only [regionOf_exp, BitVec.lt_def, BitVec.le_def, BitVec.toNat_ofNat] at h
  exact (and_mask_eq 16 (by rfl)).mpr (by rw [busWord_toNat]; simp only [BitVec.toNat_ofNat]; simp; omega)

theorem chrRd (v : PatAddr) : Statement (.chrRd v) := by
  refine BitVec.eq_of_toNat_eq ?_
  rw [show (0x2000#14 : BitVec 14) = BitVec.allOnes 14 <<< 13 from rfl, and_highMask, chrWord_toNat]
  have := v.isLt
  simp; omega

theorem chrWr (v : PatAddr) (d : Byte) : Statement (.chrWr v d) := by
  refine BitVec.eq_of_toNat_eq ?_
  rw [show (0x2000#14 : BitVec 14) = BitVec.allOnes 14 <<< 13 from rfl, and_highMask, chrWord_toNat]
  have := v.isLt
  simp; omega

theorem create : Statement .create := rfl
theorem reset : Statement .reset := rfl
theorem load (image : List Byte) (allocOk : Bool) : Statement (.load image allocOk) := rfl
theorem tick : Statement .tick := rfl
theorem inspect : Statement .inspect := rfl
theorem readmem (a : Addr) : Statement (.readmem a) := rfl
theorem writemem (a : Addr) (d : Byte) : Statement (.writemem a d) := rfl
theorem destroy : Statement .destroy := rfl

end Sys2Proof.Laws.WordMatchesRow
end

