-- ==== Sys2Proof/Tests/Slice0.lean ====
section
/-! SUPPORT. The model's own tests. Expected values are those of spec/95_test_vectors.md (`V-…`), of the examples inside the
rules, or of the encodings of spec/30_encoding.md; then one witness for each obligation that has hypotheses. -/

namespace Sys2Proof.Tests

open Sys2Proof.Machine

/-! ### Small states -/

/-- A live machine with empty arrays, under `CFG0`. -/
def bare (cart : Option Cart) : Ncore where
  lowmem := []
  ppuregs := []
  apuregs := []
  cart := cart
  cpuSteps := 0
  ppuSteps := 0
  apuSteps := 0
  nmiPending := false
  irqLine := false
  cpu := ⟨0#16, 0⟩
  ppu := ⟨0⟩
  apu := ⟨0⟩

/-- The state that holds a live machine. -/
def live (m : Ncore) : State := State.reset.setLife (.live m)

/-- A record as a `LOAD` of an image of zero bytes leaves it. -/
def record (v : Variant) (id prgBanks chrBanks : Byte) (saveRam : Bool) : Cart where
  hdr := ⟨.ntsc, prgBanks, chrBanks, saveRam, id, .ines⟩
  rom := List.replicate (0x4000 * prgBanks.toNat) 0#8
  vrom := List.replicate (0x2000 * chrBanks.toNat) 0#8
  variant := v
  prgBank := 0#8
  chrBank := 0#8
  chrRam := if chrBanks = 0#8 then some [] else none
  prgRam := if saveRam then some [] else none

/-- A live machine without a cartridge. -/
def empty : State := live (bare none)

/-- A live machine with such a record. -/
def loaded (v : Variant) (id prgBanks chrBanks : Byte) (saveRam : Bool) : State :=
  live (bare (some (record v id prgBanks chrBanks saveRam)))

/-- `FIXED`, one program bank, one graphics bank, no save RAM. -/
def fixedCart : State := loaded .fixed 0#8 1#8 1#8 false

/-- `PRGSW`, four program banks, CHR-RAM, save RAM. -/
def prgswCart : State := loaded .prgsw 2#8 4#8 0#8 true

/-- `CHRSW`, two program banks, four graphics banks, no save RAM. -/
def chrswCart : State := loaded .chrsw 3#8 2#8 4#8 false

/-- What an operation returned. -/
def returned : Out → Option Result
  | .next s => some s.result
  | .fault _ => none
  | .refused _ => none

/-- The machine an operation left. -/
def machine : Out → Option Ncore
  | .next s => match s.life with
    | .live m => some m
    | .absent => none
    | .dead => none
  | .fault _ => none
  | .refused _ => none

/-- Why an operation was refused. -/
def refusal : Out → Option Refusal
  | .next _ => none
  | .fault _ => none
  | .refused r => some r

/-- A record built so meets the invariant. -/
theorem loaded_wf {v : Variant} {id p c : Byte} {r : Bool} (h : mapperConstruct Params.cfg0 id = some v) :
    (loaded v id p c r).wf = true := by
  rw [state_wf_live (m := bare (some (record v id p c r))) rfl]
  refine ⟨cfg0_wf, ncore_wf_iff.mpr ⟨rfl, rfl, rfl, rfl, rfl, rfl, Nat.two_pow_pos _, Nat.two_pow_pos _, Nat.two_pow_pos _,
    fun k hk => ?_⟩⟩
  obtain rfl : record v id p c r = k := by simpa [bare] using hk
  refine cart_wf_iff.mpr ⟨by simp [record, romSize], by simp [record, vromSize], h, ?_, ?_, fun m hm => ?_, fun m hm => ?_⟩
  · by_cases h0 : c = 0#8 <;> simp [record, h0]
  · cases r <;> simp [record]
  · by_cases h0 : c = 0#8 <;> simp [record, h0] at hm
    subst hm; exact ⟨rfl, rfl⟩
  · cases r <;> simp [record] at hm
    subst hm; exact ⟨rfl, rfl⟩

theorem empty_wf : empty.wf = true := by decide
theorem fixedCart_wf : fixedCart.wf = true := loaded_wf rfl
theorem prgswCart_wf : prgswCart.wf = true := loaded_wf rfl
theorem chrswCart_wf : chrswCart.wf = true := loaded_wf rfl

/-! ### WellFormed: one ill-formed term for each check (R142 to R155, "Operand: a in ...") -/

theorem test_illformed_rdRam : (Instr.rdRam 0x2000#16).wellFormed = false := by decide
theorem test_illformed_rdPpu : (Instr.rdPpu 0x4000#16).wellFormed = false := by decide
theorem test_illformed_rdIox : (Instr.rdIox 0x4017#16).wellFormed = false := by decide
theorem test_illformed_rdApu : (Instr.rdApu 0x4018#16).wellFormed = false := by decide
theorem test_illformed_rdPrg : (Instr.rdPrg 0x7FFF#16).wellFormed = false := by decide
theorem test_illformed_rdSram : (Instr.rdSram 0x5FFF#16).wellFormed = false := by decide
theorem test_illformed_rdExp : (Instr.rdExp 0x401F#16).wellFormed = false := by decide
theorem test_illformed_wrRam : (Instr.wrRam 0x2000#16 0#8).wellFormed = false := by decide
theorem test_illformed_wrPpu : (Instr.wrPpu 0x1FFF#16 0#8).wellFormed = false := by decide
theorem test_illformed_wrIox : (Instr.wrIox 0x4020#16 0#8).wellFormed = false := by decide
theorem test_illformed_wrApu : (Instr.wrApu 0x3FFF#16 0#8).wellFormed = false := by decide
theorem test_illformed_wrPrg : (Instr.wrPrg 0x0000#16 0#8).wellFormed = false := by decide
theorem test_illformed_wrSram : (Instr.wrSram 0x8000#16 0#8).wellFormed = false := by decide
theorem test_illformed_wrExp : (Instr.wrExp 0x6000#16 0#8).wellFormed = false := by decide

/-! ### Decode: words written out bit by bit from R101 to R104 and spec/95_test_vectors.md section 3 -/

/-- Reads: `rw = 0`, then `addr[15:0]`; bytes low first. -/
theorem test_decode_reads :
    decode .bus [0b11111111#8, 0b00000111#8, 0b0#8] = .ok (.rdRam 0x07FF#16) ∧
    decode .bus [0b00001000#8, 0b00100000#8, 0b0#8] = .ok (.rdPpu 0x2008#16) ∧
    decode .bus [0b00011111#8, 0b01000000#8, 0b0#8] = .ok (.rdIox 0x401F#16) ∧
    decode .bus [0b00010111#8, 0b01000000#8, 0b0#8] = .ok (.rdApu 0x4017#16) ∧
    decode .bus [0b00000000#8, 0b10000000#8, 0b0#8] = .ok (.rdPrg 0x8000#16) ∧
    decode .bus [0b00000000#8, 0b01100000#8, 0b0#8] = .ok (.rdSram 0x6000#16) ∧
    decode .bus [0b11111111#8, 0b01011111#8, 0b0#8] = .ok (.rdExp 0x5FFF#16) := by decide

/-- Writes: `rw = 1`, `addr[15:0]`, then the data byte. -/
theorem test_decode_writes :
    decode .bus [0b11111111#8, 0b00011111#8, 0b1#8, 0x5A#8] = .ok (.wrRam 0x1FFF#16 0x5A#8) ∧
    decode .bus [0b11111111#8, 0b00111111#8, 0b1#8, 0x5A#8] = .ok (.wrPpu 0x3FFF#16 0x5A#8) ∧
    decode .bus [0b00011000#8, 0b01000000#8, 0b1#8, 0xFF#8] = .ok (.wrIox 0x4018#16 0xFF#8) ∧
    decode .bus [0b00000000#8, 0b01000000#8, 0b1#8, 0xA5#8] = .ok (.wrApu 0x4000#16 0xA5#8) ∧
    decode .bus [0b11111111#8, 0b11111111#8, 0b1#8, 0x03#8] = .ok (.wrPrg 0xFFFF#16 0x03#8) ∧
    decode .bus [0b11111111#8, 0b01111111#8, 0b1#8, 0x01#8] = .ok (.wrSram 0x7FFF#16 0x01#8) ∧
    decode .bus [0b00100000#8, 0b01000000#8, 0b1#8, 0x12#8] = .ok (.wrExp 0x4020#16 0x12#8) := by decide

/-- `CHR` words 0x0010, 0x2010, 0x1FFF, 0x3FFF. -/
theorem test_decode_chr :
    decode .chr [0x10#8, 0b00000000#8] = .ok (.chrRd 0x0010#13) ∧
    decode .chr [0x10#8, 0b00100000#8, 0x99#8] = .ok (.chrWr 0x0010#13 0x99#8) ∧
    decode .chr [0xFF#8, 0b00011111#8] = .ok (.chrRd 0x1FFF#13) ∧
    decode .chr [0xFF#8, 0b00111111#8, 0x99#8] = .ok (.chrWr 0x1FFF#13 0x99#8) := by decide

/-- `HOST` codes 0 to 7. -/
theorem test_decode_host :
    decode .host [0b000#8] = .ok .create ∧ decode .host [0b001#8] = .ok .reset ∧
    decode .host [0b010#8, 0x01#8, 0x4E#8, 0x45#8] = .ok (.load [0x4E#8, 0x45#8] true) ∧
    decode .host [0b011#8] = .ok .tick ∧ decode .host [0b100#8] = .ok .inspect ∧
    decode .host [0b101#8, 0x01#8, 0x08#8] = .ok (.readmem 0x0801#16) ∧
    decode .host [0b110#8, 0x01#8, 0x00#8, 0xAB#8] = .ok (.writemem 0x0001#16 0xAB#8) ∧
    decode .host [0b111#8] = .ok .destroy := by decide

/-- Bytes that are no word of their port with its operands, each rejected by name. -/
theorem test_decode_rejects :
    decode .bus [0x00#8, 0x00#8] = .error .shortWord ∧
    decode .bus [0x00#8, 0x00#8, 0x02#8] = .error .unusedBits ∧
    decode .bus [0x00#8, 0x00#8, 0x01#8] = .error .missingOperand ∧
    decode .bus [0x00#8, 0x00#8, 0x00#8, 0x00#8] = .error .trailingBytes ∧
    decode .chr [0x00#8, 0x40#8] = .error .unusedBits ∧ decode .chr [0x00#8] = .error .shortWord ∧
    decode .host [0x08#8] = .error .unusedBits ∧ decode .host [] = .error .shortWord ∧
    decode .host [0x02#8, 0x02#8] = .error .badFlag := by decide

/-- A row's word placed where `step` takes its next request, with zero operands. -/
theorem test_decodeTableWord :
    decodeTableWord 24 0x04018 = some (.rdIox 0x4018#16) ∧ decodeTableWord 24 0x18000 = some (.wrPrg 0x8000#16 0#8) ∧
    decodeTableWord 16 0x2000 = some (.chrWr 0#13 0#8) ∧ decodeTableWord 8 2 = some (.load [] false) ∧
    decodeTableWord 8 6 = some (.writemem 0#16 0#8) := by decide

/-! ### Reads and writes of the bus (V-B1 to V-B5, V-M9, the examples of R142 to R155) -/

theorem test_rdRam_alias :
    returned (exec (.rdRam 0x1801#16) (live { bare none with lowmem := [(1, 0xAB#8)] })) = some (.byte 0xAB#8) := by decide

theorem test_rdPpu_alias :
    returned (exec (.rdPpu 0x3FFA#16) (live { bare none with ppuregs := [(2, 0x80#8)] })) = some (.byte 0x80#8) := by decide

/-- With `P_OPEN_BUS = 0xFF` (V-B2). -/
theorem test_rdIox_open :
    returned (exec (.rdIox 0x4018#16) { empty with params := { Params.cfg0 with openBus := 0xFF#8 } }) =
      some (.byte 0xFF#8) := by decide

theorem test_rdApu_last :
    returned (exec (.rdApu 0x4017#16) (live { bare none with apuregs := [(23, 0x11#8)] })) = some (.byte 0x11#8) := by decide

/-- `FIXED`, one bank, `cart.rom[0] = $4C`: `RD $C000 -> $4C` (R147). -/
theorem test_rdPrg_single_bank :
    returned (exec (.rdPrg 0xC000#16) (live (bare (some { record .fixed 0#8 1#8 1#8 false with rom := [0x4C#8] })))) =
      some (.byte 0x4C#8) := by decide

/-- `PRGSW` with three banks and `prg_bank = 5`: offset 0x8000 in both windows (V-M4). -/
theorem test_translatePrg_three_banks :
    translatePrg { record .prgsw 2#8 3#8 0#8 false with prgBank := 5#8 } 0x8000#16 = 0x8000 ∧
    translatePrg { record .prgsw 2#8 3#8 0#8 false with prgBank := 5#8 } 0xC000#16 = 0x8000 := by decide

/-- `P_PRG_RAM_SIZE = 0x0800`: 0x6800 mirrors 0x6000 (V-B5). -/
theorem test_rdSram_mirror :
    returned (exec (.rdSram 0x6800#16) { live (bare (some { record .prgsw 2#8 0#8 0#8 true with
      prgRam := some [(0, 0x77#8)] })) with params := { Params.cfg0 with prgRamSize := 0x800 } }) =
      some (.byte 0x77#8) := by decide

theorem test_rdExp_open :
    returned (exec (.rdExp 0x5000#16) { empty with params := { Params.cfg0 with openBus := 0xFF#8 } }) =
      some (.byte 0xFF#8) := by decide

theorem test_wrRam_alias :
    (machine (exec (.wrRam 0x1FFF#16 0x5A#8) empty)).map (·.lowmem) = some [(0x7FF, 0x5A#8)] := by decide

/-- Storing the fill removes the cell: equal contents are equal data. -/
theorem test_wrRam_fill :
    (machine (exec (.wrRam 0x0801#16 0x00#8) (live { bare none with lowmem := [(1, 0xAB#8), (5, 1#8)] }))).map (·.lowmem) =
      some [(5, 1#8)] := by decide

theorem test_wrPpu_alias :
    (machine (exec (.wrPpu 0x3FFF#16 0x5A#8) empty)).map (·.ppuregs) = some [(7, 0x5A#8)] := by decide

theorem test_wrIox_ignored : machine (exec (.wrIox 0x4018#16 0xFF#8) empty) = some (bare none) := by decide

theorem test_wrApu_last :
    (machine (exec (.wrApu 0x4017#16 0x11#8) empty)).map (·.apuregs) = some [(23, 0x11#8)] := by decide

/-- V-M3: `WR $80FF, $FF` stores all eight bits, and bank 3 of 4 is used. -/
theorem test_wrPrg_prgsw :
    (machine (exec (.wrPrg 0x80FF#16 0xFF#8) (live (bare (some { record .prgsw 2#8 4#8 0#8 false with rom := [] }))))).map
      (fun m => m.cart.map fun c => (c.prgBank, c.chrBank, translatePrg c 0x8000#16, translatePrg c 0xC000#16)) =
      some (some (0xFF#8, 0#8, 0xC000, 0xC000)) := by decide

/-- V-M5: `WR $FFFF, $06` with four graphics banks uses bank 2. -/
theorem test_wrPrg_chrsw :
    (machine (exec (.wrPrg 0xFFFF#16 0x06#8) (live (bare (some
      { record .chrsw 3#8 2#8 4#8 false with rom := [], vrom := [] }))))).map
      (fun m => m.cart.map fun c => (c.prgBank, c.chrBank, translateChr Params.cfg0 c 0x0010#13)) =
      some (some (0#8, 6#8, 0x4010)) := by decide

theorem test_wrSram_last :
    (machine (exec (.wrSram 0x7FFF#16 0x01#8) (loaded .prgsw 2#8 0#8 0#8 true))).map (fun m => m.cart.map (·.prgRam)) =
      some (some (some [(0x1FFF, 1#8)])) := by decide

theorem test_wrSram_absent :
    machine (exec (.wrSram 0x7FFF#16 0x01#8) (loaded .prgsw 2#8 0#8 0#8 false)) =
      some (bare (some (record .prgsw 2#8 0#8 0#8 false))) := by decide

theorem test_wrExp_ignored : machine (exec (.wrExp 0x5FFF#16 0x66#8) empty) = some (bare none) := by decide

/-- A `BUS` operation with another region's address is refused (log 13). -/
theorem test_wrong_region : refusal (exec (.rdRam 0x2000#16) empty) = some .addressOutsideRegion := by decide

/-! ### The video port (V-M5 to V-M8) -/

/-- `CHRSW`, four graphics banks, `chr_bank = 3`: `translate_chr(0x0010) = 0x6010` (R184). -/
theorem test_translateChr_switched :
    translateChr Params.cfg0 { record .chrsw 3#8 2#8 4#8 false with rom := [], vrom := [], chrBank := 3#8 } 0x0010#13 =
      0x6010 := by decide

theorem test_chrRd_ram :
    returned (exec (.chrRd 0x1000#13) (live (bare (some { record .fixed 0#8 0#8 0#8 false with
      chrRam := some [(0x1000, 0x3C#8)] })))) = some (.byte 0x3C#8) := by decide

theorem test_chrWr_ram :
    (machine (exec (.chrWr 0x0005#13 0x42#8) (loaded .fixed 0#8 0#8 0#8 false))).map (fun m => m.cart.map (·.chrRam)) =
      some (some (some [(5, 0x42#8)])) := by decide

/-- Graphics ROM is not written (V-M5). -/
theorem test_chrWr_rom :
    machine (exec (.chrWr 0x0010#13 0xAA#8) (live (bare (some
      { record .chrsw 3#8 2#8 4#8 false with rom := [], vrom := [0x10#8] })))) =
      some (bare (some { record .chrsw 3#8 2#8 4#8 false with rom := [], vrom := [0x10#8] })) := by decide

/-- Addresses presented to a port wrap (V-B4, V-M8). -/
theorem test_address_wrap : busAddress 0x10001 = 0x0001#16 ∧ patternAddress 0x2010 = 0x0010#13 := by decide

/-! ### Host commands -/

/-- V-F1 with `P_OPEN_BUS = 0xFF`: `pc = 0xFFFF`. -/
theorem test_create_pc :
    (machine (exec .create { State.reset with life := .absent, params := { Params.cfg0 with openBus := 0xFF#8 } })).map
      (·.cpu.pc) = some 0xFFFF#16 := by decide

/-- V-F7: a second `CREATE` is refused. -/
theorem test_create_twice : refusal (exec .create State.reset) = some .notAbsent := by decide

/-- `IMG_E`'s program ROM: `code` at 0, the two handlers, the three vectors; 0xEA elsewhere. -/
def imgERom (code : List Byte) : List Byte :=
  code ++ (List.replicate (0x1000 - code.length) 0xEA#8
    ++ ([0xA9#8, 0x01#8, 0x8D#8, 0x00#8, 0x03#8, 0x4C#8, 0x05#8, 0x90#8] ++ (List.replicate 0xFF8 0xEA#8
    ++ ([0xA9#8, 0x02#8, 0x8D#8, 0x01#8, 0x03#8, 0x4C#8, 0x05#8, 0xA0#8] ++ (List.replicate 0x1FF2 0xEA#8
    ++ [0x00#8, 0x90#8, 0x00#8, 0x80#8, 0x00#8, 0xA0#8])))))

/-- `IMG_E(code)` loaded, graphics ROM left out. -/
def imgE (code : List Byte) : Ncore := bare (some { record .fixed 0#8 1#8 1#8 false with rom := imgERom code, vrom := [] })

/-- `RESET` enters at 0x8000 (R243) and drops pending requests (V-I6). -/
theorem test_reset_pc :
    (machine (exec .reset (live { imgE [] with nmiPending := true, irqLine := true, cpuSteps := 5 }))).map
      (fun m => (m.cpu.pc, m.nmiPending, m.irqLine, m.cpuSteps)) = some (0x8000#16, false, false, 0) := by decide +kernel

/-- V-F3: `RESET` clears the bank register and the arrays, and keeps save RAM. -/
theorem test_reset_bank :
    (machine (exec .reset (live { bare (some { record .prgsw 2#8 0#8 0#8 true with
        prgBank := 2#8, prgRam := some [(0, 0x77#8)] }) with lowmem := [(0, 0x55#8)] }))).map
      (fun m => (m.lowmem, m.cart)) =
      some ([], some { record .prgsw 2#8 0#8 0#8 true with prgRam := some [(0, 0x77#8)] }) := by decide

/-- The 16 header bytes hdr(p, c, A, B, r, g) of spec/95_test_vectors.md section 2. -/
def hdr (p c a b r g : Byte) : List Byte :=
  [0x4E#8, 0x45#8, 0x53#8, 0x1A#8, p, c, a, b, r, g] ++ List.replicate 6 0x00#8

theorem hdr_length (p c a b r g : Byte) : (hdr p c a b r g).length = 16 := rfl

/-- V-L1, V-L2, V-L3 and V-L20, V-L4, V-L5 and V-L21, V-L16, V-L17, V-L19 with `IMG_D`, V-L11's id without payload. -/
theorem test_load_errors :
    returned (exec (.load [] true) empty) =
      some (.loadError (.badMagic [0x4E#8, 0x45#8, 0x53#8, 0x1A#8] [])) ∧
    returned (exec (.load [0x4E#8, 0x45#8, 0x53#8] true) empty) =
      some (.loadError (.badMagic [0x4E#8, 0x45#8, 0x53#8, 0x1A#8] [0x4E#8, 0x45#8, 0x53#8])) ∧
    returned (exec (.load (0x58#8 :: (hdr 1#8 1#8 0#8 0#8 0#8 0#8).drop 1) false) empty) =
      some (.loadError (.badMagic [0x4E#8, 0x45#8, 0x53#8, 0x1A#8] [0x58#8, 0x45#8, 0x53#8, 0x1A#8])) ∧
    returned (exec (.load [0x4E#8, 0x45#8, 0x53#8, 0x1A#8] true) empty) = some (.loadError (.truncatedImage 16 4)) ∧
    returned (exec (.load ((hdr 1#8 1#8 0#8 0#8 0#8 0#8).take 15) false) empty) =
      some (.loadError (.truncatedImage 16 15)) ∧
    returned (exec (.load (hdr 1#8 0#8 0#8 0#8 0#8 0#8) true) empty) = some (.loadError (.truncatedImage 0x4000 0)) ∧
    returned (exec (.load (hdr 255#8 255#8 0#8 0#8 0#8 0#8) true) empty) =
      some (.loadError (.truncatedImage 0x3FC000 0)) ∧
    returned (exec (.load (hdr 0#8 0#8 0#8 0#8 0#8 0#8) false) empty) = some (.loadError .outOfMemory) ∧
    returned (exec (.load (hdr 0#8 0#8 0x20#8 0x40#8 0#8 0#8) true) empty) =
      some (.loadError (.unsupportedMapper 0x42#8)) := by decide

/-- V-L15 (`IMG_D`), with V-L9's flag bytes, V-L25's region byte and V-L26's save-RAM count. -/
theorem test_load_ok :
    (machine (exec (.load (hdr 0#8 0#8 0x20#8 0x08#8 0xFF#8 0x80#8) true) empty)).map (·.cart) =
      some (some ⟨⟨.pal, 0#8, 0#8, true, 2#8, .ines⟩, [], [], .prgsw, 0#8, 0#8, some [], some []⟩) := by decide

theorem test_inspect :
    returned (exec .inspect (live { bare none with ppuSteps := 3, irqLine := true, cpu := ⟨0xC2C3#16, 9⟩ })) =
      some (.snapshot ⟨false, none, 0, 3, 0, false, true, 0xC2C3#16⟩) := by decide

/-- V-B3: 0x4037 is no mirror of 0x4017. -/
theorem test_readmem :
    returned (exec (.readmem 0x4037#16) (live { bare none with apuregs := [(23, 0x11#8)] })) = some (.byte 0x00#8) := by
  decide

/-- V-F8: `WRITEMEM` switches banks like a CPU write. -/
theorem test_writemem :
    (machine (exec (.writemem 0xFFFF#16 0x03#8) (loaded .prgsw 2#8 0#8 0#8 false))).map
      (fun m => m.cart.map (·.prgBank)) = some (some 3#8) := by decide

/-- V-F7: after `DESTROY` a command is refused. -/
theorem test_destroy :
    refusal (match exec .destroy empty with
      | .next s => exec .reset s
      | .fault r => .fault r
      | .refused r => .refused r) = some .notLive := by decide

/-! ### The scheduler and the interrupts, with the fixtures `IDLE` and `TOY` of spec/95_test_vectors.md section 0.2 -/

/-- `IDLE`. -/
def idle : Collaborators 16 where
  cpu := { reset := fun _ => ⟨0#16, 0⟩ }
  ppu := {}
  apu := {}

/-- V-S9: one tick with no cartridge counts (1, 3, 2). -/
theorem test_tick_ntsc :
    (fun m : Ncore => (m.cpuSteps, m.ppuSteps, m.apuSteps)) (tick Params.cfg0 idle (bare none)) = (1, 3, 2) := by decide

/-- V-F6 and a PAL tick of V-F5: the counters wrap, the counts follow the format. -/
theorem test_tick_pal_wrap :
    (fun m : Ncore => (m.cpuSteps, m.ppuSteps, m.apuSteps)) (tick Params.cfg0 idle
      { bare (some { record .fixed 0#8 0#8 0#8 false with hdr := ⟨.pal, 0#8, 0#8, false, 0#8, .ines⟩ }) with
        cpuSteps := 2, ppuSteps := 2 ^ 64 - 1, apuSteps := 4 }) = (7, 15, 14) := by decide

/-- The registers `a`, `sp`, `i` of `TOY`'s CPU, packed into the code. -/
def toyCode (a sp : Byte) (i : Bool) : Nat := a.toNat + 256 * sp.toNat + if i then 65536 else 0

/-- Register `a` of a code. -/
def toyA (n : Nat) : Byte := BitVec.ofNat 8 n

/-- Register `sp` of a code. -/
def toySp (n : Nat) : Byte := BitVec.ofNat 8 (n / 256)

/-- Register `i` of a code. -/
def toyI (n : Nat) : Bool := n / 65536 == 1

/-- `TOY`'s `CpuStep`. -/
def toyStep (c : CpuState) : BusProg (CpuState × Bool) 16 :=
  .read c.pc fun b =>
    if b = 0x00#8 then .done (c.setPc (c.pc + 1), true)
    else if b = 0xA9#8 then
      .read (c.pc + 1) fun v => .done (⟨c.pc + 2, toyCode v (toySp c.code) (toyI c.code)⟩, false)
    else if b = 0x8D#8 then
      .read (c.pc + 1) fun l => .read (c.pc + 2) fun h =>
        .write (h ++ l) (toyA c.code) (.done (c.setPc (c.pc + 3), false))
    else if b = 0x4C#8 then .read (c.pc + 1) fun l => .read (c.pc + 2) fun h => .done (c.setPc (h ++ l), false)
    else if b = 0x58#8 then .done (⟨c.pc + 1, toyCode (toyA c.code) (toySp c.code) false⟩, false)
    else .done (c.setPc (c.pc + 1), false)

/-- `TOY`'s `CpuEnter`. -/
def toyEnter (c : CpuState) (_ : Interrupt) (v : Addr) : BusProg CpuState 16 :=
  .write (0x0100#16 + (toySp c.code).setWidth 16) (c.pc.extractLsb' 8 8)
    (.write (0x0100#16 + (toySp c.code - 1#8).setWidth 16) (c.pc.extractLsb' 0 8)
      (.done ⟨v, toyCode (toyA c.code) (toySp c.code - 2#8) true⟩))

/-- `TOY`'s CPU; its chips are left idle. -/
def toy : Collaborators 16 where
  cpu := { reset := fun _ => ⟨0#16, toyCode 0x00#8 0xFD#8 true⟩, irqEnabled := fun c => !(toyI c.code), step := toyStep
           enter := toyEnter, reset_reset := fun _ => rfl, reset_setPc := fun _ _ => rfl, enter_pc := fun _ _ _ => rfl }
  ppu := {}
  apu := {}

/-- V-I2, tick 2: the break is dispatched in its own slot; `pc = 0xA000`, `sp = 0xFB`, 0x80 and 0x02 pushed. -/
theorem test_slot_break :
    (fun m : Ncore => (m.cpu, m.lowmem, m.cpuSteps)) (cpuSlot Params.cfg0 toy { imgE [0xEA#8, 0x00#8, 0xEA#8] with
      cpu := ⟨0x8001#16, toyCode 0x00#8 0xFD#8 true⟩, cpuSteps := 1 }) =
      (⟨0xA000#16, toyCode 0x00#8 0xFB#8 true⟩, [(0x1FC, 0x02#8), (0x1FD, 0x80#8)], 2) := by decide +kernel

/-- V-I4: with both pending the `NMI` is dispatched, `pc = 0x9000`, and the line stays. -/
theorem test_slot_nmi_first :
    (fun m : Ncore => (m.cpu, m.lowmem, m.nmiPending, m.irqLine, m.cpuSteps)) (cpuSlot Params.cfg0 toy { imgE [] with
      cpu := ⟨0x8001#16, toyCode 0x00#8 0xFD#8 false⟩, nmiPending := true, irqLine := true }) =
      (⟨0x9000#16, toyCode 0x00#8 0xFB#8 true⟩, [(0x1FC, 0x01#8), (0x1FD, 0x80#8)], false, true, 1) := by decide +kernel

/-- V-I3: a masked request is not dispatched; the CPU steps. -/
theorem test_slot_masked :
    (fun m : Ncore => (m.cpu, m.lowmem)) (cpuSlot Params.cfg0 toy { imgE [] with
      cpu := ⟨0x8000#16, toyCode 0x00#8 0xFD#8 true⟩, irqLine := true }) =
      (⟨0x8001#16, toyCode 0x00#8 0xFD#8 true⟩, []) := by decide +kernel

/-- An unmasked request enters through 0xFFFE (R289, R292). -/
theorem test_slot_irq :
    (fun m : Ncore => (m.cpu.pc, m.irqLine)) (cpuSlot Params.cfg0 toy { imgE [] with
      cpu := ⟨0x8000#16, toyCode 0x00#8 0xFD#8 false⟩, irqLine := true }) = (0xA000#16, true) := by decide +kernel

/-! ### The step -/

/-- A step takes the first request and leaves the others. -/
theorem test_step_request :
    step ((live { bare none with lowmem := [(1, 0xAB#8)] }).setRequests
      [⟨.host, [0x05#8, 0x01#8, 0x08#8]⟩, ⟨.host, [0x03#8]⟩]) =
      .next (((live { bare none with lowmem := [(1, 0xAB#8)] }).setRequests [⟨.host, [0x03#8]⟩]).setResult
        (.byte 0xAB#8)) := rfl

/-- A `CHR` word between commands, a `HOST` word inside a chip's step and any word in the audio chip's are refused (R105, R298). -/
theorem test_step_out_of_turn :
    refusal (step (empty.setRequests [⟨.chr, [0x10#8, 0x00#8]⟩])) = some (.notItsTurn .chr) ∧
    refusal (step ((empty.setTurn .ppu).setRequests [⟨.host, [0x03#8]⟩])) = some (.notItsTurn .host) ∧
    refusal (step ((empty.setTurn .apu).setRequests [⟨.bus, [0x00#8, 0x00#8, 0x00#8]⟩])) = some (.notItsTurn .bus) := by
  decide

/-- The words 0x2000 (`CHR.WR`) and 0x00000 (`RD.RAM`) as the first operation, each in its own agent's turn. -/
theorem test_withFetchWord :
    step (State.reset.withFetchWord 14 0x2000) = exec (.chrWr 0#13 0#8) (State.reset.setTurn .ppu) ∧
    step (State.reset.withFetchWord 17 0x00000) = exec (.rdRam 0#16) (State.reset.setTurn .cpu) := ⟨rfl, rfl⟩

/-! ### Witnesses: for each obligation with hypotheses, states and operands that meet them, at the ends of each range -/

/-- A state that meets the invariant and holds a live machine with a record. -/
def Holds (s : State) (m : Ncore) (c : Cart) : Prop := s.wf = true ∧ s.life = .live m ∧ m.cart = some c

theorem holds_loaded {v : Variant} {id p c : Byte} {r : Bool} (h : mapperConstruct Params.cfg0 id = some v) :
    Holds (loaded v id p c r) (bare (some (record v id p c r))) (record v id p c r) := ⟨loaded_wf h, rfl, rfl⟩

theorem empty_live : empty.wf = true ∧ empty.life = .live (bare none) ∧ (bare none).cart = none := ⟨empty_wf, rfl, rfl⟩

theorem witness_RdRamAnswersLowmemByte :
    empty.life = .live (bare none) ∧ 0x0000#16 < 0x2000#16 ∧ 0x1FFF#16 < 0x2000#16 := by decide

theorem witness_RdPpuAnswersWindowByte : empty.life = .live (bare none) ∧
    (0x2000#16 ≤ 0x2000#16 ∧ 0x2000#16 < 0x4000#16) ∧ (0x2000#16 ≤ 0x3FFF#16 ∧ 0x3FFF#16 < 0x4000#16) := by decide

theorem witness_RdApuAnswersWindowByte : empty.life = .live (bare none) ∧
    (0x4000#16 ≤ 0x4000#16 ∧ 0x4000#16 < 0x4018#16) ∧ (0x4000#16 ≤ 0x4017#16 ∧ 0x4017#16 < 0x4018#16) := by decide

theorem witness_RdIoxRdExpAnswerOpenBus : empty.life = .live (bare none) ∧
    (0x4018#16 ≤ 0x4018#16 ∧ 0x4018#16 < 0x4020#16) ∧ (0x4018#16 ≤ 0x401F#16 ∧ 0x401F#16 < 0x4020#16) ∧
    (0x4020#16 ≤ 0x4020#16 ∧ 0x4020#16 < 0x6000#16) ∧ (0x4020#16 ≤ 0x5FFF#16 ∧ 0x5FFF#16 < 0x6000#16) := by decide

/-- No cartridge; no bank; one bank, `FIXED`, both ends; `CHRSW`; `PRGSW` on both sides of 0xC000. -/
theorem witness_RdPrgAnswersBankedRom :
    (empty.wf = true ∧ empty.life = .live (bare none) ∧ (bare none).cart = none) ∧
    (∃ s m c, Holds s m c ∧ c.hdr.prgBankCount = 0#8) ∧
    (∃ s m c, Holds s m c ∧ c.hdr.prgBankCount = 1#8 ∧ c.variant ≠ .prgsw ∧ 0x8000#16 ≤ 0x8000#16 ∧
      0x8000#16 ≤ 0xFFFF#16) ∧
    (∃ s m c, Holds s m c ∧ c.hdr.prgBankCount = 2#8 ∧ c.variant = .chrsw) ∧
    (∃ s m c, Holds s m c ∧ c.hdr.prgBankCount = 4#8 ∧ c.variant = .prgsw ∧
      (0x8000#16 ≤ 0xBFFF#16 ∧ 0xBFFF#16 < 0xC000#16) ∧ 0xC000#16 ≤ 0xC000#16) :=
  ⟨empty_live, ⟨_, _, _, holds_loaded (v := .fixed) (id := 0#8) (p := 0#8) (c := 0#8) (r := false) rfl, rfl⟩,
    ⟨fixedCart, _, _, holds_loaded rfl, rfl, nofun, by decide, by decide⟩, ⟨chrswCart, _, _, holds_loaded rfl, rfl, rfl⟩,
    ⟨prgswCart, _, _, holds_loaded rfl, rfl, rfl, by decide, by decide⟩⟩

/-- No cartridge; no save RAM; save RAM; both ends of the window. -/
theorem witness_RdSramAnswersSaveRam :
    (empty.wf = true ∧ empty.life = .live (bare none) ∧ (bare none).cart = none) ∧
    (∃ s m c, Holds s m c ∧ c.hdr.hasPrgRam = false) ∧ (∃ s m c, Holds s m c ∧ c.hdr.hasPrgRam = true) ∧
    (0x6000#16 ≤ 0x6000#16 ∧ 0x6000#16 < 0x8000#16) ∧ (0x6000#16 ≤ 0x7FFF#16 ∧ 0x7FFF#16 < 0x8000#16) :=
  ⟨empty_live, ⟨fixedCart, _, _, holds_loaded rfl, rfl⟩, ⟨prgswCart, _, _, holds_loaded rfl, rfl⟩, by decide, by decide⟩

theorem witness_WrRamStoresOneByte : empty.wf = true ∧ empty.life = .live (bare none) ∧
    0x0000#16 < 0x2000#16 ∧ 0x1FFF#16 < 0x2000#16 := by decide

theorem witness_WrPpuStoresOneByte : empty.wf = true ∧ empty.life = .live (bare none) ∧
    (0x2000#16 ≤ 0x2000#16 ∧ 0x2000#16 < 0x4000#16) ∧ (0x2000#16 ≤ 0x3FFF#16 ∧ 0x3FFF#16 < 0x4000#16) ∧
    (7 : Fin 8).val = ((0x3FFF#16 - 0x2000#16) &&& 0x0007#16).toNat := by decide

theorem witness_WrApuStoresOneByte : empty.wf = true ∧ empty.life = .live (bare none) ∧
    (0x4000#16 ≤ 0x4000#16 ∧ 0x4000#16 < 0x4018#16) ∧ (0x4000#16 ≤ 0x4017#16 ∧ 0x4017#16 < 0x4018#16) := by decide

theorem witness_WrIoxWrExpChangeNothing : empty.life = .live (bare none) ∧
    (0x4018#16 ≤ 0x4018#16 ∧ 0x4018#16 < 0x4020#16) ∧ (0x4018#16 ≤ 0x401F#16 ∧ 0x401F#16 < 0x4020#16) ∧
    (0x4020#16 ≤ 0x4020#16 ∧ 0x4020#16 < 0x6000#16) ∧ (0x4020#16 ≤ 0x5FFF#16 ∧ 0x5FFF#16 < 0x6000#16) := by decide

/-- No cartridge and each of the three variants; both ends of the range. -/
theorem witness_WrPrgSwitchesBankOnly :
    (empty.life = .live (bare none) ∧ (bare none).cart = none) ∧
    (∃ s m c, Holds s m c ∧ c.variant = .fixed) ∧ (∃ s m c, Holds s m c ∧ c.variant = .prgsw) ∧
    (∃ s m c, Holds s m c ∧ c.variant = .chrsw) ∧ 0x8000#16 ≤ 0x8000#16 ∧ 0x8000#16 ≤ 0xFFFF#16 :=
  ⟨⟨rfl, rfl⟩, ⟨fixedCart, _, _, holds_loaded rfl, rfl⟩, ⟨prgswCart, _, _, holds_loaded rfl, rfl⟩,
    ⟨chrswCart, _, _, holds_loaded rfl, rfl⟩, by decide, by decide⟩

theorem witness_WrSramStoresOneByte :
    (empty.wf = true ∧ empty.life = .live (bare none) ∧ (bare none).cart = none) ∧
    (∃ s m c, Holds s m c ∧ c.hdr.hasPrgRam = false) ∧ (∃ s m c, Holds s m c ∧ c.hdr.hasPrgRam = true) ∧
    (0x6000#16 ≤ 0x6000#16 ∧ 0x6000#16 < 0x8000#16) ∧ (0x6000#16 ≤ 0x7FFF#16 ∧ 0x7FFF#16 < 0x8000#16) :=
  witness_RdSramAnswersSaveRam

/-- No cartridge; CHR-RAM; graphics ROM without and with bank switching. -/
theorem witness_ChrRdAnswersPatternByte :
    (empty.wf = true ∧ empty.life = .live (bare none) ∧ (bare none).cart = none) ∧
    (∃ s m c, Holds s m c ∧ c.hdr.chrBankCount = 0#8) ∧
    (∃ s m c, Holds s m c ∧ c.hdr.chrBankCount ≠ 0#8 ∧ c.variant ≠ .chrsw) ∧
    (∃ s m c, Holds s m c ∧ c.hdr.chrBankCount ≠ 0#8 ∧ c.variant = .chrsw) :=
  ⟨empty_live, ⟨prgswCart, _, _, holds_loaded rfl, rfl⟩, ⟨fixedCart, _, _, holds_loaded rfl, nofun, nofun⟩,
    ⟨chrswCart, _, _, holds_loaded rfl, nofun, rfl⟩⟩

theorem witness_ChrWrStoresInChrRamOnly :
    (empty.wf = true ∧ empty.life = .live (bare none) ∧ (bare none).cart = none) ∧
    (∃ s m c, Holds s m c ∧ c.hdr.chrBankCount ≠ 0#8) ∧ (∃ s m c, Holds s m c ∧ c.hdr.chrBankCount = 0#8) :=
  ⟨empty_live, ⟨fixedCart, _, _, holds_loaded rfl, nofun⟩, ⟨prgswCart, _, _, holds_loaded rfl, rfl⟩⟩

theorem witness_CreateGivesFreshMachine : (State.reset.setLife .absent).life = .absent := rfl

theorem witness_ResetReinitialises : prgswCart.life = .live (bare (some (record .prgsw 2#8 4#8 0#8 true))) := rfl

theorem witness_ResetEntersAtResetVector : prgswCart.life = .live (bare (some (record .prgsw 2#8 4#8 0#8 true))) ∧
    empty.life = .live (bare none) := ⟨rfl, rfl⟩

theorem witness_ResetTwiceIsResetOnce : prgswCart.life = .live (bare (some (record .prgsw 2#8 4#8 0#8 true))) := rfl

/-- Each check's clause at its ends: 0 and 3 bytes, a wrong fourth byte; 4 and 15 bytes; a whole header without memory; a
program ROM, then a graphics ROM, short by all of itself and by one byte; a whole image of an unknown mapper. -/
theorem witness_LoadReportsFirstFailedCheck : empty.life = .live (bare none) ∧
    (([] : List Byte).length < 4 ∧ ((hdr 0#8 0#8 0#8 0#8 0#8 0#8).take 3).length < 4 ∧
      (0x58#8 :: (hdr 0#8 0#8 0#8 0#8 0#8 0#8).drop 1).take 4 ≠ empty.params.magic.toList) ∧
    ((hdr 1#8 0#8 0#8 0#8 0#8 0#8).take 4 = empty.params.magic.toList ∧
      ((hdr 1#8 0#8 0#8 0#8 0#8 0#8).take 4).length = 4 ∧ ((hdr 1#8 0#8 0#8 0#8 0#8 0#8).take 15).length = 15) ∧
    (16 ≤ (hdr 1#8 0#8 0#8 0#8 0#8 0#8).length ∧ (hdr 1#8 0#8 0#8 0#8 0#8 0#8).length - 16 < 0x4000 * (1#8).toNat) ∧
    ((hdr 1#8 0#8 0#8 0#8 0#8 0#8 ++ List.replicate 0x3FFF 0#8).length - 16 < 0x4000 * (1#8).toNat) ∧
    (0x4000 * (0#8).toNat ≤ (hdr 0#8 1#8 0#8 0#8 0#8 0#8).length - 16 ∧
      (hdr 0#8 1#8 0#8 0#8 0#8 0#8).length - 16 - 0x4000 * (0#8).toNat < 0x2000 * (1#8).toNat) ∧
    ((hdr 0#8 1#8 0#8 0#8 0#8 0#8 ++ List.replicate 0x1FFF 0#8).length - 16 - 0x4000 * (0#8).toNat < 0x2000 * (1#8).toNat) ∧
    (16 + 0x4000 * (0#8).toNat + 0x2000 * (0#8).toNat ≤ (hdr 0#8 0#8 0x10#8 0#8 0#8 0#8).length ∧
      empty.params.variants.lookup ((0#8 &&& 0xF0#8) ||| (0x10#8 >>> 4)) = none) := by
  refine ⟨rfl, by decide, by decide, by decide, ?_, by decide, ?_, by decide⟩ <;>
    simp only [List.length_append, hdr_length, List.length_replicate] <;> decide

/-- A header-only image (`IMG_D`), and one program bank of exactly its size. -/
theorem witness_LoadInstallsRecord : empty.life = .live (bare none) ∧
    (hdr 0#8 0#8 0#8 0#8 0#8 0#8).take 4 = empty.params.magic.toList ∧
    16 + 0x4000 * (0#8).toNat + 0x2000 * (0#8).toNat ≤ (hdr 0#8 0#8 0#8 0#8 0#8 0#8).length ∧
    empty.params.variants.lookup ((0#8 &&& 0xF0#8) ||| (0#8 >>> 4)) = some .fixed ∧
    (hdr 1#8 0#8 0#8 0#8 0#8 0#8 ++ List.replicate 0x4000 0#8).take 4 = empty.params.magic.toList ∧
    16 + 0x4000 * (1#8).toNat + 0x2000 * (0#8).toNat ≤
      (hdr 1#8 0#8 0#8 0#8 0#8 0#8 ++ List.replicate 0x4000 0#8).length := by
  refine ⟨rfl, by decide, by decide, by decide, rfl, ?_⟩
  simp only [List.length_append, hdr_length, List.length_replicate]
  decide

/-- An image of one program bank of zeros. -/
def oneBank : List Byte := hdr 1#8 0#8 0#8 0#8 0#8 0#8 ++ List.replicate 0x4000 0#8

theorem oneBank_length : oneBank.length = 16 + 0x4000 := by
  simp only [oneBank, List.length_append, hdr_length, List.length_replicate]

/-- Such an image loads. -/
theorem parse_one_bank : parseImage Params.cfg0 oneBank true = .ok (imageCart Params.cfg0 oneBank .fixed) :=
  parseImage_ok.mpr ⟨by rw [oneBank_length]; decide, rfl, by rw [oneBank_length]; decide, rfl,
    by rw [oneBank_length]; exact le_of_eq rfl, .fixed, rfl, rfl⟩

theorem witness_LoadCopiesPayload : ∃ t, exec (.load oneBank true) empty = .next t ∧ t.result = .loadOk := by
  refine ⟨(empty.setLife (.live ((bare none).setCart (some (imageCart Params.cfg0 oneBank .fixed))))).setResult .loadOk, ?_,
    rfl⟩
  simp only [exec, execLoad]
  rw [onLive_live (m := bare none) rfl, show parseImage empty.params oneBank true = _ from parse_one_bank]
  simp only [commit]

/-- Other low nibbles at offsets 6 and 7, other bytes at 10 to 15; three bytes after the payload. -/
theorem witness_LoadIgnoresReservedBits : empty.life = .live (bare none) ∧
    ((hdr 0#8 0#8 0x0F#8 0x0F#8 0#8 0#8).take 10 ++ List.replicate 6 0xFF#8).length =
      (hdr 0#8 0#8 0#8 0#8 0#8 0#8).length ∧
    (∀ k, k ≠ 6 → k ≠ 7 → (k < 10 ∨ 16 ≤ k) →
      ((hdr 0#8 0#8 0x0F#8 0x0F#8 0#8 0#8).take 10 ++ List.replicate 6 0xFF#8)[k]? = (hdr 0#8 0#8 0#8 0#8 0#8 0#8)[k]?) ∧
    (0x0F#8 : Byte) >>> 4 = 0#8 >>> 4 ∧ (0x0F#8 : Byte) &&& 0xF0#8 = 0#8 &&& 0xF0#8 ∧
    (returned (exec (.load (hdr 0#8 0#8 0#8 0#8 0#8 0#8) true) empty) = some .loadOk) := by
  refine ⟨rfl, by decide, fun k h6 h7 hk => ?_, by decide, by decide, by decide⟩
  rcases hk with hk | hk
  · interval_cases k <;> first | rfl | exact absurd rfl h6 | exact absurd rfl h7
  · rw [List.getElem?_eq_none (by simp [hdr]; omega), List.getElem?_eq_none (by simp [hdr]; omega)]

theorem witness_LoadIndependentOfState : empty.life = .live (bare none) ∧
    fixedCart.life = .live (bare (some (record .fixed 0#8 1#8 1#8 false))) ∧ empty.params = fixedCart.params :=
  ⟨rfl, rfl, rfl⟩

theorem witness_LoadErrorChangesNothing :
    (∃ t, exec (.load [] true) empty = .next t ∧ t.result = .loadError (.badMagic Params.cfg0.magic.toList [])) ∧
    (∃ t, exec (.load (hdr 1#8 0#8 0#8 0#8 0#8 0#8) true) empty = .next t ∧
      t.result = .loadError (.truncatedImage 0x4000 0)) ∧
    (∃ t, exec (.load (hdr 0#8 0#8 0x10#8 0#8 0#8 0#8) true) empty = .next t ∧
      t.result = .loadError (.unsupportedMapper 1#8)) ∧
    (∃ t, exec (.load (hdr 0#8 0#8 0#8 0#8 0#8 0#8) false) empty = .next t ∧ t.result = .loadError .outOfMemory) :=
  ⟨⟨_, rfl, rfl⟩, ⟨_, rfl, rfl⟩, ⟨_, rfl, rfl⟩, ⟨_, rfl, rfl⟩⟩

theorem witness_InspectAnswersSnapshot : empty.life = .live (bare none) ∧
    fixedCart.life = .live (bare (some (record .fixed 0#8 1#8 1#8 false))) := ⟨rfl, rfl⟩

theorem witness_DestroyEndsMachine : empty.life = .live (bare none) := rfl

theorem witness_ReadmemIsTheBusRead : empty.life = .live (bare none) := rfl

theorem witness_WritememIsTheBusWrite : empty.life = .live (bare none) := rfl

/-- No cartridge, and a cartridge of either format. -/
theorem witness_TickRunsThreeGroups :
    (empty.life = .live (bare none) ∧ (bare none).cart = none ∧ Params.cfg0.counts Params.cfg0.defaultFormat = ⟨1, 3, 2⟩) ∧
    (∃ m c, fixedCart.life = .live m ∧ m.cart = some c ∧ Params.cfg0.counts c.hdr.format = ⟨1, 3, 2⟩) ∧
    Params.cfg0.counts .pal = ⟨5, 16, 10⟩ := ⟨⟨rfl, rfl, rfl⟩, ⟨_, _, rfl, rfl, rfl⟩, rfl⟩

theorem witness_OutsideLifeRefused : Instr.tick ≠ .create ∧ (State.reset.setLife .absent).life = .absent ∧
    (State.reset.setLife .dead).life = .dead ∧ empty.life = .live (bare none) := by decide

theorem witness_AddressOutsideRegionRefused : empty.life = .live (bare none) ∧ regionOf 0x2000#16 ≠ .ram ∧
    regionOf 0x1FFF#16 ≠ .ppu ∧ regionOf 0x4018#16 ≠ .apu := by decide

theorem witness_StepRunsDecodedRequest :
    ((empty.setRequests [⟨.host, [3#8]⟩, ⟨.bus, []⟩]).requests = ⟨.host, [3#8]⟩ :: [⟨.bus, []⟩] ∧ empty.turn = .host ∧
      decode .host [3#8] = .ok .tick) ∧
    (∃ s : State, s.requests = ⟨.bus, [0#8, 0#8, 0#8]⟩ :: [] ∧ s.turn = .cpu) ∧
    (∃ s : State, s.requests = ⟨.bus, [0#8, 0#8, 0#8]⟩ :: [] ∧ s.turn = .block) ∧
    decode .bus [0#8, 0#8, 0#8] = .ok (.rdRam 0#16) ∧
    (∃ s : State, s.requests = ⟨.chr, [0#8, 0#8]⟩ :: [] ∧ s.turn = .ppu) ∧ decode .chr [0#8, 0#8] = .ok (.chrRd 0#13) ∧
    (decodeTableWord 24 0x08000 = some (.rdPrg 0x8000#16) ∧ (Instr.rdPrg 0x8000#16).port = .bus) ∧
    (decodeTableWord 14 0x2000 = some (.chrWr 0#13 0#8) ∧ (Instr.chrWr 0#13 0#8).port = .chr) ∧
    (decodeTableWord 3 3 = some .tick ∧ Instr.tick.port = .host) :=
  ⟨by decide, ⟨(empty.setTurn .cpu).setRequests _, rfl, rfl⟩, ⟨(empty.setTurn .block).setRequests _, rfl, rfl⟩, by decide,
    ⟨(empty.setTurn .ppu).setRequests _, rfl, rfl⟩, by decide, by decide, by decide, by decide⟩

theorem witness_StepIdlesOrNamesMalformed : empty.requests = [] ∧
    (∃ s : State, s.requests = ⟨.bus, []⟩ :: [] ∧ s.turn = .cpu) ∧ decode .bus [] = .error .shortWord ∧
    (∃ s : State, s.requests = ⟨.host, [8#8]⟩ :: [] ∧ s.turn = .host) ∧ decode .host [8#8] = .error .unusedBits ∧
    (∃ s : State, s.requests = ⟨.chr, [0#8]⟩ :: [] ∧ s.turn = .ppu) ∧ decode .chr [0#8] = .error .shortWord :=
  ⟨rfl, ⟨(empty.setTurn .cpu).setRequests _, rfl, rfl⟩, by decide, ⟨empty.setRequests _, rfl, rfl⟩, by decide,
    ⟨(empty.setTurn .ppu).setRequests _, rfl, rfl⟩, by decide⟩

theorem witness_DecodeEncodeRoundTrip : (Instr.rdRam 0x1FFF#16).wellFormed = true ∧
    (Instr.wrExp 0x4020#16 0xFF#8).wellFormed = true ∧ (Instr.load [] false).wellFormed = true := by decide

theorem witness_DecodeAcceptsOnlyEncodings : decode .chr [0xFF#8, 0x1F#8] = .ok (.chrRd 0x1FFF#13) := by decide

theorem witness_MirrorsAliasOneByte :
    (0x0000#16 < 0x2000#16 ∧ 0x1FFF#16 < 0x2000#16) ∧ (0x7FF < 0x800 ∧ 3 < 4) ∧
    (0x2000#16 ≤ 0x2000#16 ∧ 0x3FFF#16 < 0x4000#16) ∧ (7 < 8 ∧ 0x3FF < 0x400) ∧
    (0x4000#16 ≤ 0x4000#16 ∧ 0x4017#16 < 0x4018#16) ∧ decodeAddr 0x1800#16 = decodeAddr 0x0000#16 := by decide

/-- Each of the four kinds of storage. -/
theorem witness_ReadAfterWriteAnswersValue : (empty.wf = true ∧ empty.life = .live (bare none)) ∧
    regionOf 0x1FFF#16 = .ram ∧ regionOf 0x2000#16 = .ppu ∧ regionOf 0x4017#16 = .apu ∧
    (∃ s m c, Holds s m c ∧ regionOf 0x7FFF#16 = .sram ∧ c.hdr.hasPrgRam = true) :=
  ⟨⟨empty_wf, rfl⟩, by decide, by decide, by decide, ⟨prgswCart, _, _, holds_loaded rfl, by decide, rfl⟩⟩

/-- Each of the eight clauses. -/
theorem witness_WriteChangesOnlyAliases : (empty.wf = true ∧ empty.life = .live (bare none)) ∧
    regionOf 0x1FFF#16 ≠ regionOf 0x2000#16 ∧ (regionOf 0x0000#16 = .ram ∧ ramIndex 0x0000#16 ≠ ramIndex 0x0801#16) ∧
    (regionOf 0x2000#16 = .ppu ∧ ppuIndex 0x2000#16 ≠ ppuIndex 0x2009#16) ∧
    (regionOf 0x4000#16 = .apu ∧ apuIndex 0x4000#16 ≠ apuIndex 0x4017#16) ∧
    (regionOf 0x6000#16 = .sram ∧ sramIndex empty.params 0x6000#16 ≠ sramIndex empty.params 0x7FFF#16) ∧
    regionOf 0x4018#16 = .iox ∧ regionOf 0x4020#16 = .exp ∧ (regionOf 0x8000#16 = .prg ∧ (bare none).cart = none) ∧
    0xC000#16 ≤ 0xC000#16 ∧ (∃ s m c, Holds s m c ∧ c.variant ≠ .prgsw) :=
  ⟨⟨empty_wf, rfl⟩, by decide, by decide, by decide, by decide, by decide, by decide, by decide, by decide, by decide,
    ⟨chrswCart, _, _, holds_loaded rfl, nofun⟩⟩

theorem witness_TranslationStaysInBounds :
    0 < 0x4000 * (record .prgsw 2#8 1#8 0#8 true).hdr.prgBankCount.toNat ∧ 0 < Params.cfg0.chrRamSize := by
  exact ⟨by decide, by decide⟩

theorem witness_ChrRamPersistsAcrossReset : ∃ s m c, Holds s m c ∧ c.hdr.chrBankCount = 0#8 :=
  ⟨prgswCart, _, _, holds_loaded rfl, rfl⟩

theorem witness_VideoWritesInvisibleOnBus : prgswCart.life = .live (bare (some (record .prgsw 2#8 4#8 0#8 true))) := rfl

/-- A bank write, a bus write below 0x8000, `RESET`, a `LOAD` that succeeds and one that fails, and a read. -/
theorem witness_BankRegistersMoveAsStated : ∃ s m c, s.life = .live m ∧ m.cart = some c ∧
    (∃ t m' c', exec (.wrPrg 0x8000#16 3#8) s = .next t ∧ t.life = .live m' ∧ m'.cart = some c') ∧
    (∃ t m' c', exec (.writemem 0x7FFF#16 3#8) s = .next t ∧ t.life = .live m' ∧ m'.cart = some c' ∧
      0x7FFF#16 < 0x8000#16) ∧
    (∃ t m' c', exec .reset s = .next t ∧ t.life = .live m' ∧ m'.cart = some c') ∧
    (∃ t m' c', exec (.load (hdr 0#8 0#8 0#8 0#8 0#8 0#8) true) s = .next t ∧ t.life = .live m' ∧ m'.cart = some c' ∧
      t.result = .loadOk) ∧
    (∃ t m' c', exec (.load [] true) s = .next t ∧ t.life = .live m' ∧ m'.cart = some c' ∧ t.result ≠ .loadOk) ∧
    (∃ t m' c', exec .inspect s = .next t ∧ t.life = .live m' ∧ m'.cart = some c') :=
  ⟨prgswCart, _, _, rfl, rfl, ⟨_, _, _, rfl, rfl, rfl⟩, ⟨_, _, _, rfl, rfl, rfl, by decide⟩, ⟨_, _, _, rfl, rfl, rfl⟩,
    ⟨_, _, _, rfl, rfl, rfl, rfl⟩, ⟨_, _, _, rfl, rfl, rfl, nofun⟩, ⟨_, _, _, rfl, rfl, rfl⟩⟩

/-- Two machines that differ in counters, flags and collaborators' states. -/
theorem witness_BusReadsIgnoreChips :
    (live { bare none with cpuSteps := 7, irqLine := true, ppu := ⟨3⟩ }).life =
      .live { bare none with cpuSteps := 7, irqLine := true, ppu := ⟨3⟩ } ∧ empty.life = .live (bare none) ∧
    (live { bare none with cpuSteps := 7, irqLine := true, ppu := ⟨3⟩ }).params = empty.params := by decide

/-- `TOY` about to be interrupted at 0x8001, with no cartridge. -/
def toyRunning : Ncore := (bare none).setCpu ⟨0x8001#16, toyCode 0x00#8 0xFD#8 false⟩

/-- `TOY` enters with its two pushes, for an `IRQ`; `IDLE` with none, for an `NMI`. -/
theorem witness_DispatchEntersAtVector :
    (0x0000#16 = memRead Params.cfg0 toyRunning 0xFFFF#16 ++ memRead Params.cfg0 toyRunning 0xFFFE#16 ∧
      runBus Params.cfg0 (toy.cpu.enter toyRunning.cpu .irq 0x0000#16) toyRunning =
        (⟨0x0000#16, toyCode 0x00#8 0xFB#8 true⟩, toyRunning.setLowmem [(0x1FC, 0x01#8), (0x1FD, 0x80#8)])) ∧
    (0x0000#16 = memRead Params.cfg0 (bare none) 0xFFFB#16 ++ memRead Params.cfg0 (bare none) 0xFFFA#16 ∧
      runBus Params.cfg0 (idle.cpu.enter (bare none).cpu .nmi 0x0000#16) (bare none) = (⟨0x0000#16, 0⟩, bare none)) := by
  decide +kernel

/-- A pending `NMI`; an enabled `IRQ`; no event with a step that reports no break, and with one that does. -/
theorem witness_CpuSlotTakesOneEvent :
    { bare none with nmiPending := true }.nmiPending = true ∧
    ({ bare none with irqLine := true }.nmiPending = false ∧ { bare none with irqLine := true }.irqLine = true ∧
      toy.cpu.irqEnabled (bare none).cpu = true) ∧
    ((bare none).nmiPending = false ∧ (bare none).irqLine = false ∧
      runBus Params.cfg0 (idle.cpu.step (bare none).cpu) (bare none) = ((⟨0#16, 0⟩, false), bare none) ∧
      runBus Params.cfg0 (toy.cpu.step (bare none).cpu) (bare none) = ((⟨1#16, 0⟩, true), bare none)) := by decide

theorem witness_TicksAdvanceCountersByRatio :
    (empty.life = .live (bare none) ∧ (bare none).cart = none ∧ Params.cfg0.counts Params.cfg0.defaultFormat = ⟨1, 3, 2⟩) ∧
    (∃ m c, fixedCart.life = .live m ∧ m.cart = some c ∧ Params.cfg0.counts c.hdr.format = ⟨1, 3, 2⟩) :=
  ⟨⟨rfl, rfl, rfl⟩, ⟨_, _, rfl, rfl, rfl⟩⟩

theorem witness_LiveOperationsComplete : empty.life = .live (bare none) ∧
    (Instr.wrSram 0x7FFF#16 1#8).wellFormed = true ∧ Instr.tick.wellFormed = true ∧ Instr.tick ≠ .create := by decide

/-- One operation of each kind of result. -/
theorem witness_ResultKindsAsStated :
    (∃ t, exec (readOp .ram 0x1FFF#16) empty = .next t) ∧ (∃ t, exec (.chrRd 0#13) empty = .next t) ∧
    (∃ t, exec (.readmem 0#16) empty = .next t) ∧ (∃ t, exec (.load [] true) empty = .next t) ∧
    (∃ t, exec .inspect empty = .next t) ∧ (∃ t, exec (writeOp .exp 0x4020#16 1#8) empty = .next t) ∧
    (∃ t, exec .create (State.reset.setLife .absent) = .next t) ∧ (∃ t, exec .destroy empty = .next t) :=
  ⟨⟨_, rfl⟩, ⟨_, rfl⟩, ⟨_, rfl⟩, ⟨_, rfl⟩, ⟨_, rfl⟩, ⟨_, rfl⟩, ⟨_, rfl⟩, ⟨_, rfl⟩⟩

theorem witness_LifeMovesOnlyByCreateDestroy :
    (∃ t, exec .create (State.reset.setLife .absent) = .next t) ∧ (∃ t, exec .destroy empty = .next t) ∧
    (∃ t, exec .tick empty = .next t ∧ Instr.tick ≠ .create ∧ Instr.tick ≠ .destroy) :=
  ⟨⟨_, rfl⟩, ⟨_, rfl⟩, ⟨_, rfl, nofun, nofun⟩⟩

theorem witness_RomAndHeaderOnlyFromLoad : ∃ t m', prgswCart.life = .live (bare (some (record .prgsw 2#8 4#8 0#8 true))) ∧
    exec .tick prgswCart = .next t ∧ t.life = .live m' ∧ ∀ img ok, Instr.tick ≠ .load img ok :=
  ⟨_, _, rfl, rfl, rfl, nofun⟩

theorem witness_CountersMoveOnlyByTick : ∃ t m', prgswCart.life = .live (bare (some (record .prgsw 2#8 4#8 0#8 true))) ∧
    exec (.wrPrg 0xFFFF#16 1#8) prgswCart = .next t ∧ t.life = .live m' ∧ Instr.wrPrg 0xFFFF#16 1#8 ≠ .tick ∧
    Instr.wrPrg 0xFFFF#16 1#8 ≠ .reset := ⟨_, _, rfl, rfl, rfl, nofun, nofun⟩

/-- A step that performs a write, and a tick. -/
theorem witness_StepKeepsInvariant :
    (∃ t, (empty.setRequests [⟨.host, [6#8, 1#8, 0#8, 0xAB#8]⟩]).wf = true ∧
      step (empty.setRequests [⟨.host, [6#8, 1#8, 0#8, 0xAB#8]⟩]) = .next t) ∧
    (∃ t, (empty.setRequests [⟨.host, [3#8]⟩]).wf = true ∧ step (empty.setRequests [⟨.host, [3#8]⟩]) = .next t) :=
  ⟨⟨_, empty_wf, rfl⟩, ⟨_, empty_wf, rfl⟩⟩

/-- A word of each port in an agent's turn that holds it, and one of each port in a turn that does not. -/
theorem witness_WordsIssuedOnlyInTurn :
    (∃ s t : State, s.requests = ⟨.host, [3#8]⟩ :: [] ∧ s.turn = .host ∧ step s = .next t) ∧
    (∃ s t : State, s.requests = ⟨.bus, [0#8, 0#8, 0#8]⟩ :: [] ∧ s.turn = .cpu ∧ step s = .next t) ∧
    (∃ s t : State, s.requests = ⟨.chr, [0#8, 0#8]⟩ :: [] ∧ s.turn = .ppu ∧ step s = .next t) ∧
    (∃ s : State, s.requests = ⟨.host, [3#8]⟩ :: [] ∧ s.turn ≠ .host) ∧
    (∃ s : State, s.requests = ⟨.bus, [0#8, 0#8, 0#8]⟩ :: [] ∧ s.turn ≠ .cpu ∧ s.turn ≠ .block) ∧
    (∃ s : State, s.requests = ⟨.chr, [0#8, 0#8]⟩ :: [] ∧ s.turn ≠ .ppu) :=
  ⟨⟨empty.setRequests _, _, rfl, rfl, rfl⟩, ⟨(empty.setTurn .cpu).setRequests _, _, rfl, rfl, rfl⟩,
    ⟨(empty.setTurn .ppu).setRequests _, _, rfl, rfl, rfl⟩, ⟨(empty.setTurn .block).setRequests _, rfl, nofun⟩,
    ⟨(empty.setTurn .ppu).setRequests _, rfl, nofun, nofun⟩, ⟨empty.setRequests _, rfl, nofun⟩⟩

end Sys2Proof.Tests
end

section
/-! The mirrors of the CPU address space: what addresses that decode alike share (spec/20_memory.md R63 to R65, R80). -/

namespace Sys2Proof.Machine

/-- What `Decode` returns for an address of a region (R62, R67), read off the region. -/
def locationIn (a : Addr) : Region → Location
  | .ram => .ram (ramIndex a)
  | .ppu => .ppu (ppuIndex a)
  | .iox => .iox (a - 0x4018#16).toNat
  | .apu => .apu (apuIndex a)
  | .exp => .exp (a - 0x4020#16).toNat
  | .prg => .prg a
  | .sram => .sram (a - 0x6000#16).toNat

theorem decodeAddr_eq_locationIn (a : Addr) : decodeAddr a = locationIn a (regionOf a) := by
  rw [regionOf_eq]
  simp only [decodeAddr, mapperDecode]
  split_ifs <;> rfl

theorem decodeAddr_of_region {a : Addr} {r : Region} (h : regionOf a = r) : decodeAddr a = locationIn a r := by
  rw [decodeAddr_eq_locationIn, h]

theorem regionOf_eq_of_decodeAddr_eq {a b : Addr} (h : decodeAddr a = decodeAddr b) : regionOf a = regionOf b :=
  congrArg regionOfLocation h

theorem locationIn_eq_of_decodeAddr_eq {a b : Addr} {r : Region} (h : decodeAddr a = decodeAddr b)
    (hr : regionOf a = r) : locationIn a r = locationIn b r := by
  rw [← decodeAddr_of_region hr, h, decodeAddr_of_region ((regionOf_eq_of_decodeAddr_eq h).symm.trans hr)]

/-- Outside the two mirrored windows `Decode` keeps the whole offset of the address, so it has no aliases there. -/
theorem eq_of_decodeAddr_eq {a b : Addr} (h : decodeAddr a = decodeAddr b) (hram : regionOf a ≠ .ram)
    (hppu : regionOf a ≠ .ppu) : a = b := by
  have offset_inj : ∀ {k : Addr}, (a - k).toNat = (b - k).toNat → a = b :=
    fun hk => (BitVec.sub_left_inj _).mp (BitVec.toNat_inj.mp hk)
  cases hr : regionOf a with
  | ram => exact absurd hr hram
  | ppu => exact absurd hr hppu
  | iox => exact offset_inj (Location.iox.inj (locationIn_eq_of_decodeAddr_eq h hr))
  | apu => exact offset_inj (Location.apu.inj (locationIn_eq_of_decodeAddr_eq h hr))
  | exp => exact offset_inj (Location.exp.inj (locationIn_eq_of_decodeAddr_eq h hr))
  | prg => exact Location.prg.inj (locationIn_eq_of_decodeAddr_eq h hr)
  | sram => exact offset_inj (Location.sram.inj (locationIn_eq_of_decodeAddr_eq h hr))

/-- In a mirrored window an access uses the address only through its index (R63, R64); elsewhere there are no aliases. -/
theorem access_eq_of_decodeAddr_eq (p : Params) (m : Ncore) {a b : Addr} (d : Byte) (h : decodeAddr a = decodeAddr b) :
    memRead p m a = memRead p m b ∧ memWrite p m a d = memWrite p m b d := by
  have hb := regionOf_eq_of_decodeAddr_eq h
  by_cases hram : regionOf a = .ram
  · have hi : ramIndex a = ramIndex b := Location.ram.inj (locationIn_eq_of_decodeAddr_eq h hram)
    simp only [memRead, memWrite, ← hb, hram, readRam, writeRam, hi, and_self]
  by_cases hppu : regionOf a = .ppu
  · have hi : ppuIndex a = ppuIndex b := Location.ppu.inj (locationIn_eq_of_decodeAddr_eq h hppu)
    simp only [memRead, memWrite, ← hb, hppu, readPpu, writePpu, hi, and_self]
  · rw [eq_of_decodeAddr_eq h hram hppu]
    exact ⟨rfl, rfl⟩

/-- The four addresses of a `lowmem` byte (R63). -/
theorem decodeAddr_ramMirror {i k : Nat} (hi : i < 0x800) (hk : k < 4) :
    decodeAddr (BitVec.ofNat 16 (i + 0x800 * k)) = .ram i := by
  have hn : (BitVec.ofNat 16 (i + 0x800 * k)).toNat = i + 0x800 * k := Nat.mod_eq_of_lt (by omega)
  have hr : regionOf (BitVec.ofNat 16 (i + 0x800 * k)) = .ram := by
    rw [regionOf_ram, BitVec.lt_def, hn]
    simp only [BitVec.toNat_ofNat]
    omega
  rw [decodeAddr_of_region hr, locationIn, ramIndex_eq, hn, Nat.add_mul_mod_self_left, Nat.mod_eq_of_lt hi]

/-- The 1024 addresses of a `ppuregs` byte (R64). -/
theorem decodeAddr_ppuMirror {i k : Nat} (hi : i < 8) (hk : k < 0x400) :
    decodeAddr (BitVec.ofNat 16 (0x2000 + i + 8 * k)) = .ppu i := by
  have hn : (BitVec.ofNat 16 (0x2000 + i + 8 * k)).toNat = 0x2000 + i + 8 * k := Nat.mod_eq_of_lt (by omega)
  have hr : regionOf (BitVec.ofNat 16 (0x2000 + i + 8 * k)) = .ppu := by
    rw [regionOf_ppu, BitVec.le_def, BitVec.lt_def, hn]
    simp only [BitVec.toNat_ofNat]
    omega
  rw [decodeAddr_of_region hr, locationIn, ppuIndex_eq, hn, show (0x2000 + i + 8 * k) % 8 = i by omega]

/-- 0x2000 is a multiple of 8, so the offset need not be taken first (R64). -/
theorem ppuIndex_eq_and (a : Addr) : ppuIndex a = (a &&& 0x0007#16).toNat := by
  rw [ppuIndex_eq, BitVec.toNat_and]
  exact (Nat.and_two_pow_sub_one_eq_mod a.toNat 3).symm

/-- Settles O38: each window decodes to its region's index, and the accesses use the address only through what it
decodes to. -/
theorem mirrorsAliasOneByte : Obligations.MirrorsAliasOneByte := by
  unfold Obligations.MirrorsAliasOneByte
  refine ⟨fun a ha => ⟨decodeAddr_of_region (regionOf_ram.mpr ha), ramIndex_lt a⟩,
    fun i k => decodeAddr_ramMirror, fun a hlo hhi => ?ppu, fun i k => decodeAddr_ppuMirror, fun a hlo hhi => ?apu,
    fun p m a b d => access_eq_of_decodeAddr_eq p m d⟩
  case ppu =>
    exact ⟨decodeAddr_of_region (regionOf_ppu.mpr ⟨hlo, hhi⟩), ppuIndex_eq_and a, ppuIndex_eq_and a ▸ ppuIndex_lt a⟩
  case apu =>
    have hr : regionOf a = .apu := regionOf_apu.mpr ⟨hlo, hhi⟩
    have hram : regionOf a ≠ .ram := by rw [hr]; decide
    have hppu : regionOf a ≠ .ppu := by rw [hr]; decide
    exact ⟨decodeAddr_of_region hr, apuIndex_lt hr, fun b hb => (eq_of_decodeAddr_eq hb.symm hram hppu).symm⟩

end Sys2Proof.Machine
end

section
/-! What each operation returns (spec/30_encoding.md R106), and where a `LOAD` that returns `OK` puts the bytes of the image
(R111 to R113, R118). -/

namespace Sys2Proof.Machine

/-! ### What an operation that answers next returns -/

theorem reply_result {s t : State} {r : Result} (h : reply s r = .next t) : t.result = r :=
  congrArg State.result (reply_next.mp h)

theorem commit_result {s t : State} {m : Ncore} {r : Result} (h : commit s m r = .next t) : t.result = r :=
  congrArg State.result (commit_next.mp h)

theorem onLive_commit_result {s t : State} {f : Ncore → Ncore} {r : Result}
    (h : onLive s (fun m => commit s (f m) r) = .next t) : t.result = r := by
  obtain ⟨m, -, h⟩ := onLive_next h
  exact commit_result h

theorem onRegion_congr {r : Region} {a : Addr} {s : State} {f g : Ncore → Out}
    (h : regionOf a = r → ∀ m, f m = g m) : onRegion r a s f = onRegion r a s g := by
  unfold onRegion
  split_ifs with hr
  · rw [funext (h hr)]
  · rfl

/-- The seven reads are one: the bus read of an address of the operation's own region (R140). -/
theorem exec_readOp (r : Region) (a : Addr) (s : State) :
    exec (readOp r a) s = onRegion r a s fun m => reply s (.byte (memRead s.params m a)) := by
  cases r <;> exact onRegion_congr fun hr m => by simp only [memRead, hr]

/-- The seven writes are one: the bus write of an address of the operation's own region (R141). -/
theorem exec_writeOp (r : Region) (a : Addr) (d : Byte) (s : State) :
    exec (writeOp r a d) s = onRegion r a s fun m => commit s (memWrite s.params m a d) .nothing := by
  cases r <;> exact onRegion_congr fun hr m => by simp only [memWrite, hr]

theorem exec_create_next {s t : State} (h : exec .create s = .next t) : s.life = .absent ∧
    t = (s.setLife (.live (resetProcedure s.params s.chips (poweredOn s.chips)))).setResult .nothing := by
  simp only [exec, execCreate] at h
  split at h
  · exact ⟨‹_›, commit_next.mp h⟩
  · cases h
  · cases h

/-- A `LOAD` that answers next has installed the record the parser built, or has reported the parser's error and changed
nothing (R222, R223). -/
theorem exec_load_next {s t : State} {img : List Byte} {ok : Bool} (h : exec (.load img ok) s = .next t) :
    ∃ m, s.life = .live m ∧
      ((∃ c, parseImage s.params img ok = .ok c ∧ t = (s.setLife (.live (m.setCart (some c)))).setResult .loadOk) ∨
        ∃ e, parseImage s.params img ok = .error e ∧ t = s.setResult (.loadError e)) := by
  obtain ⟨m, hm, h⟩ := onLive_next h
  split at h
  · exact ⟨m, hm, .inl ⟨_, ‹_›, commit_next.mp h⟩⟩
  · exact ⟨m, hm, .inr ⟨_, ‹_›, reply_next.mp h⟩⟩

/-- Settles O54: an operation that answers next ends in the `reply` or `commit` of its own arm. -/
theorem resultKindsAsStated : Obligations.ResultKindsAsStated := by
  unfold Obligations.ResultKindsAsStated
  refine fun i s t h => ⟨?byte, ?load, ?inspect, ?nothing⟩
  case byte =>
    rintro (⟨r, a, rfl⟩ | ⟨v, rfl⟩ | ⟨a, rfl⟩)
    · obtain ⟨m, -, -, h⟩ := onRegion_next ((exec_readOp r a s).symm.trans h)
      exact ⟨_, reply_result h⟩
    · obtain ⟨m, -, h⟩ := onLive_next h
      exact ⟨_, reply_result h⟩
    · obtain ⟨m, -, h⟩ := onLive_next h
      exact ⟨_, reply_result h⟩
  case load =>
    rintro ⟨img, ok, rfl⟩
    obtain ⟨m, -, ⟨c, -, rfl⟩ | ⟨e, -, rfl⟩⟩ := exec_load_next h
    · exact .inl rfl
    · exact .inr ⟨e, rfl⟩
  case inspect =>
    rintro rfl
    obtain ⟨m, -, h⟩ := onLive_next h
    exact ⟨_, reply_result h⟩
  case nothing =>
    rintro (⟨r, a, d, rfl⟩ | ⟨v, d, rfl⟩ | ⟨a, d, rfl⟩ | rfl | rfl | rfl | rfl)
    · obtain ⟨m, -, -, h⟩ := onRegion_next ((exec_writeOp r a d s).symm.trans h)
      exact commit_result h
    · exact onLive_commit_result h
    · exact onLive_commit_result h
    · obtain ⟨-, rfl⟩ := exec_create_next h
      rfl
    · exact onLive_commit_result h
    · exact onLive_commit_result h
    · obtain ⟨m, -, h⟩ := onLive_next h
      cases h
      rfl

/-! ### The bytes of an image -/

theorem imageByte_eq_getElem? {s : List Byte} {k : Nat} (h : k < s.length) : some (imageByte s k) = s[k]? := by
  simp [imageByte, h]

theorem getElem?_take_drop {α : Type} {l : List α} {k n i : Nat} (h : i < ((l.drop k).take n).length) :
    ((l.drop k).take n)[i]? = l[k + i]? := by
  rw [List.getElem?_take_of_lt (h.trans_le (List.length_take_le n _)), List.getElem?_drop]

/-- Settles O21: the record is the one the parser builds, its buffers have the sizes of the invariant, and each is a slice
of the image. -/
theorem loadCopiesPayload : Obligations.LoadCopiesPayload := by
  unfold Obligations.LoadCopiesPayload
  intro s t img ok h hok
  obtain ⟨m, -, ⟨c, hc, rfl⟩ | ⟨e, -, rfl⟩⟩ := exec_load_next h
  · obtain ⟨hrom, hvrom, -⟩ := cart_wf_iff.mp (parseImage_wf hc)
    obtain ⟨-, -, h16, -, hlen, v, -, rfl⟩ := parseImage_ok.mp hc
    replace hrom : (imageRom img).length = imageRomSize img := hrom
    replace hvrom : (imageVrom img).length = imageVromSize img := hvrom
    rw [← hrom, ← hvrom] at hlen
    refine ⟨_, imageCart s.params img v, rfl, rfl, imageByte_eq_getElem? (by omega), imageByte_eq_getElem? (by omega),
      hrom, hvrom, hlen, fun i hi => getElem?_take_drop hi, fun j hj => ?_⟩
    change (imageVrom img)[j]? = img[16 + (imageRom img).length + j]?
    rw [hrom]
    exact getElem?_take_drop hj
  · cases hok

end Sys2Proof.Machine
end

section
/-! The CPU-bus accesses to the RAM, the video chip's window and the audio chip's window (spec/40_bus_access.md R142,
R143, R145, R149, R150, R152): the words that decode to them, and what they return and store. -/

namespace Sys2Proof.Machine

/-! ### The operation of a `BUS` word -/

/-- A row for the word's `rw` bit and its address's region. -/
def RowFits (w : BitVec 17) (row : BusRow) : Prop :=
  row.write = decide (0x10000 ≤ w.toNat) ∧ row.region = regionOf (busWordAddr w)

/-- The row the priority order selects is the one of the word's `rw` bit and of its address's region (R102). -/
theorem busRow_fits (w : BitVec 17) : ∃ row, busRow w = some row ∧ RowFits w row := by
  have hw := w.isLt
  refine ⟨_, busRow_eq w, ?_⟩
  repeat' refine iteInduction (fun _ => ?_) (fun _ => ?_)
  all_goals
    refine ⟨Eq.symm ?_, Eq.symm ?_⟩
    · simp only [decide_eq_true_eq, decide_eq_false_iff_not]
      omega
    · simp only [regionOf_ram, regionOf_ppu, regionOf_apu, regionOf_iox, regionOf_exp, regionOf_sram, regionOf_prg,
        BitVec.lt_def, BitVec.le_def, busWordAddr_toNat, BitVec.toNat_ofNat]
      omega

theorem decodeBusWord_eq (w : BitVec 17) (rest : List Byte) : decodeBusWord w rest =
    if 0x10000 ≤ w.toNat then dataOperand rest (writeOp (regionOf (busWordAddr w)) (busWordAddr w))
    else noOperands rest (readOp (regionOf (busWordAddr w)) (busWordAddr w)) := by
  obtain ⟨row, hrow, hwrite, hregion⟩ := busRow_fits w
  simp only [decodeBusWord, hrow, hwrite, hregion, decide_eq_true_eq]

/-- Each region has a read constructor of its own. -/
theorem readOp_inj {r r' : Region} {a : Addr} : readOp r a = readOp r' a ↔ r = r' := by
  cases r <;> cases r' <;> simp [readOp]

/-- Each region has a write constructor of its own. -/
theorem writeOp_inj {r r' : Region} {a : Addr} {d : Byte} : writeOp r a d = writeOp r' a d ↔ r = r' := by
  cases r <;> cases r' <;> simp [writeOp]

/-- The words of a region's read are the addresses of the region. -/
theorem decodeBusWord_readOp_iff {r : Region} {lo hi : Addr} (h : ∀ a, regionOf a = r ↔ lo ≤ a ∧ a < hi)
    (w : BitVec 17) : decodeBusWord w [] = .ok (readOp r (busWordAddr w)) ↔ lo.toNat ≤ w.toNat ∧ w.toNat < hi.toNat := by
  have hhi := hi.isLt
  rw [decodeBusWord_eq]
  split_ifs with hrw
  · simp only [dataOperand, reduceCtorEq, false_iff]
    omega
  · simp only [noOperands, Except.ok.injEq, readOp_inj, h, BitVec.lt_def, BitVec.le_def, busWordAddr_toNat]
    omega

/-- The words of a region's write are the addresses of the region with the `rw` bit set. -/
theorem decodeBusWord_writeOp_iff {r : Region} {lo hi : Addr} (h : ∀ a, regionOf a = r ↔ lo ≤ a ∧ a < hi)
    (w : BitVec 17) (d : Byte) : decodeBusWord w [d] = .ok (writeOp r (busWordAddr w) d) ↔
      0x10000 + lo.toNat ≤ w.toNat ∧ w.toNat < 0x10000 + hi.toNat := by
  have hw := w.isLt
  have hhi := hi.isLt
  rw [decodeBusWord_eq]
  split_ifs with hrw
  · simp only [dataOperand, Except.ok.injEq, writeOp_inj, h, BitVec.lt_def, BitVec.le_def, busWordAddr_toNat]
    omega
  · simp only [noOperands, reduceCtorEq, false_iff]
    omega

theorem regionOf_ram_iff_range (a : Addr) : regionOf a = .ram ↔ 0x0000#16 ≤ a ∧ a < 0x2000#16 := by
  rw [regionOf_ram]
  exact (and_iff_right (Nat.zero_le _)).symm

/-- The audio window is its 32-byte pattern at `k` without the last eight bytes, which are the pattern at `k'` (R102). -/
theorem apuPattern_iff {k k' : BitVec 17} (hk : k.toNat % 32 = 0) (hk' : k'.toNat = k.toNat + 24) (w : BitVec 17) :
    w &&& 0x1FFF8#17 ≠ k' ∧ w &&& 0x1FFE0#17 = k ↔ k.toNat ≤ w.toNat ∧ w.toNat < k.toNat + 24 := by
  have hiox : w &&& 0x1FFF8#17 = k' ↔ k'.toNat ≤ w.toNat ∧ w.toNat < k'.toNat + 8 := and_mask_eq 3 (by omega)
  have hwin : w &&& 0x1FFE0#17 = k ↔ k.toNat ≤ w.toNat ∧ w.toNat < k.toNat + 32 := and_mask_eq 5 hk
  rw [ne_eq, hiox, hwin]
  omega

/-! ### The three reads -/

/-- Settles O1: a live machine answers a RAM address with the byte of `readRam`. -/
theorem rdRamAnswersLowmemByte : Obligations.RdRamAnswersLowmemByte := by
  unfold Obligations.RdRamAnswersLowmemByte
  exact ⟨fun w => (decodeBusWord_readOp_iff regionOf_ram_iff_range w).trans
      (and_mask_eq (k := 0x00000#17) 13 rfl).symm,
    fun s m a hlive ha => onRegion_live hlive (regionOf_ram.mpr ha) _⟩

/-- Settles O2: a live machine answers an address of the video chip's window with the byte of `readPpu`. -/
theorem rdPpuAnswersWindowByte : Obligations.RdPpuAnswersWindowByte := by
  unfold Obligations.RdPpuAnswersWindowByte
  exact ⟨fun w => (decodeBusWord_readOp_iff (fun _ => regionOf_ppu) w).trans
      (and_mask_eq (k := 0x02000#17) 13 rfl).symm,
    fun s m a hlive hlo hhi => onRegion_live hlive (regionOf_ppu.mpr ⟨hlo, hhi⟩) _⟩

/-- Settles O3: a live machine answers an address of the audio chip's window with the byte of `readApu`; 0x4037 has the
window's low bits but lies among the addresses of `RD.EXP`. -/
theorem rdApuAnswersWindowByte : Obligations.RdApuAnswersWindowByte := by
  unfold Obligations.RdApuAnswersWindowByte
  exact ⟨fun w => (decodeBusWord_readOp_iff (fun _ => regionOf_apu) w).trans
      (apuPattern_iff (k := 0x04000#17) rfl rfl w).symm,
    fun s m a hlive hlo hhi => onRegion_live hlive (regionOf_apu.mpr ⟨hlo, hhi⟩) _,
    (decodeBusWord_readOp_iff (fun _ => regionOf_exp) 0x04037#17).mpr (by decide)⟩

/-! ### The three writes -/

/-- The three arrays of a live machine that meets the invariant are canonical, so a read after a write is known. -/
theorem arrays_wf {s : State} {m : Ncore} (hwf : s.wf = true) (hlive : s.life = .live m) :
    Memory.wf s.params.resetFill m.lowmem = true ∧ Memory.wf s.params.resetFill m.ppuregs = true ∧
    Memory.wf s.params.resetFill m.apuregs = true := by
  obtain ⟨-, hm⟩ := (state_wf_live hlive).mp hwf
  obtain ⟨hlowmem, -, hppuregs, -, hapuregs, -⟩ := ncore_wf_iff.mp hm
  exact ⟨hlowmem, hppuregs, hapuregs⟩

/-- Settles O7: the one store of `writeRam`, read back at every index. -/
theorem wrRamStoresOneByte : Obligations.WrRamStoresOneByte := by
  unfold Obligations.WrRamStoresOneByte
  refine ⟨fun w d => (decodeBusWord_writeOp_iff regionOf_ram_iff_range w d).trans
      (and_mask_eq (k := 0x10000#17) 13 rfl).symm,
    fun s m a d hwf hlive ha => ?_⟩
  obtain ⟨hmem, -, -⟩ := arrays_wf hwf hlive
  exact ⟨_, onRegion_live hlive (regionOf_ram.mpr ha) _, fun i => read_write _ hmem (ramIndex a) i d⟩

theorem runPpu_regRead (p : Params) {R : Type} {n : Nat} (i : Fin 8) (k : Byte → PpuProg R n) (m : Ncore) :
    runPpu p (.regRead i k) m = runPpu p (k (Memory.read p.resetFill m.ppuregs i.val)) m := rfl

/-- Settles O8: the one store of `writePpu`, read back at every index; a video-chip program reads the same array. -/
theorem wrPpuStoresOneByte : Obligations.WrPpuStoresOneByte := by
  unfold Obligations.WrPpuStoresOneByte
  refine ⟨fun w d => (decodeBusWord_writeOp_iff (fun _ => regionOf_ppu) w d).trans
      (and_mask_eq (k := 0x12000#17) 13 rfl).symm,
    fun s m a d hwf hlive hlo hhi => ?_⟩
  obtain ⟨-, hmem, -⟩ := arrays_wf hwf hlive
  have hread := fun i => read_write _ hmem (ppuIndex a) i d
  refine ⟨_, onRegion_live hlive (regionOf_ppu.mpr ⟨hlo, hhi⟩) _, hread, fun R n i k hi => ?_⟩
  have hd := (hread i.val).trans (if_pos hi)
  rw [runPpu_regRead, Ncore.setPpuregs_ppuregs, hd]

/-- Settles O9: the one store of `writeApu`, read back at every index. -/
theorem wrApuStoresOneByte : Obligations.WrApuStoresOneByte := by
  unfold Obligations.WrApuStoresOneByte
  refine ⟨fun w d => (decodeBusWord_writeOp_iff (fun _ => regionOf_apu) w d).trans
      (apuPattern_iff (k := 0x14000#17) rfl rfl w).symm,
    fun s m a d hwf hlive hlo hhi => ?_⟩
  obtain ⟨-, -, hmem⟩ := arrays_wf hwf hlive
  exact ⟨_, onRegion_live hlive (regionOf_apu.mpr ⟨hlo, hhi⟩) _, fun i => read_write _ hmem (apuIndex a) i d⟩

end Sys2Proof.Machine
end

section
/-! The offsets the mapper answers lie in the buffer they address (spec/41_mapper.md R173, R180 to R184, R188). -/

namespace Sys2Proof.Machine

theorem bankOffset_lt (a : Addr) : (a &&& 0x3FFF#16).toNat < 0x4000 := by
  rw [BitVec.toNat_and]
  exact Nat.and_lt_two_pow (n := 14) _ (by decide)

/-- Both windows select a bank of the image: the lower one reduces `prg_bank` by the count, the upper one takes the last. -/
theorem translatePrgSwitched_lt {c : Cart} (h : 0 < romSize c) (a : Addr) : translatePrgSwitched c a < romSize c := by
  unfold romSize at h ⊢
  have hoff := bankOffset_lt a
  unfold translatePrgSwitched
  split_ifs
  · have hbank : c.prgBank.toNat % c.hdr.prgBankCount.toNat < c.hdr.prgBankCount.toNat := Nat.mod_lt _ (by omega)
    omega
  · omega

theorem translatePrg_lt {c : Cart} (h : 0 < romSize c) (a : Addr) : translatePrg c a < romSize c := by
  have hfixed : translatePrgFixed c a < romSize c := Nat.mod_lt _ h
  unfold translatePrg
  cases c.variant with
  | fixed => exact hfixed
  | prgsw => exact translatePrgSwitched_lt h a
  | chrsw => exact hfixed

/-- `ChrBuf` is never empty: graphics RAM of the size given, or at least one graphics bank. -/
theorem chrBufSize_pos {p : Params} (hp : 0 < p.chrRamSize) (c : Cart) : 0 < chrBufSize p c := by
  unfold chrBufSize vromSize
  split_ifs with h0
  · exact hp
  · exact Nat.mul_pos (by decide) (count_pos h0)

theorem translateChrSwitched_lt {p : Params} (hp : 0 < p.chrRamSize) (c : Cart) (v : PatAddr) :
    translateChrSwitched p c v < chrBufSize p c := by
  unfold translateChrSwitched chrBufSize vromSize
  split_ifs with h0
  · exact Nat.mod_lt _ hp
  · have hoff := v.isLt
    have hbank : c.chrBank.toNat % c.hdr.chrBankCount.toNat < c.hdr.chrBankCount.toNat := Nat.mod_lt _ (count_pos h0)
    omega

theorem translateChr_lt {p : Params} (hp : 0 < p.chrRamSize) (c : Cart) (v : PatAddr) :
    translateChr p c v < chrBufSize p c := by
  have hfixed : translateChrFixed p c v < chrBufSize p c := Nat.mod_lt _ (chrBufSize_pos hp c)
  unfold translateChr
  cases c.variant with
  | fixed => exact hfixed
  | prgsw => exact hfixed
  | chrsw => exact translateChrSwitched_lt hp c v

/-- Settles O41: each variant's offset is a remainder by the buffer's size, or lies in a bank below the bank count. -/
theorem translationStaysInBounds : Obligations.TranslationStaysInBounds := by
  unfold Obligations.TranslationStaysInBounds
  exact ⟨fun c a h => translatePrg_lt h a, fun p c v hp => translateChr_lt hp c v⟩

end Sys2Proof.Machine
end

section
/-! What a `LOAD` depends on: the verdict of the parser on the image, `alloc_ok` and the parameters (spec/42_loader.md
R224). -/

namespace Sys2Proof.Machine

theorem exec_load_of_parse_ok {s : State} {m : Ncore} {img : List Byte} {ok : Bool} {c : Cart}
    (hm : s.life = .live m) (hc : parseImage s.params img ok = .ok c) :
    exec (.load img ok) s = .next ((s.setLife (.live (m.setCart (some c)))).setResult .loadOk) := by
  simp only [exec, execLoad, onLive_live hm, hc, commit]

theorem exec_load_of_parse_error {s : State} {m : Ncore} {img : List Byte} {ok : Bool} {e : LoadError}
    (hm : s.life = .live m) (he : parseImage s.params img ok = .error e) :
    exec (.load img ok) s = .next (s.setResult (.loadError e)) := by
  simp only [exec, execLoad, onLive_live hm, he, reply]

/-- Settles O23: with the same parameters the parser gives both machines one verdict, and that verdict fixes what `LOAD`
does to each. -/
theorem loadIndependentOfState : Obligations.LoadIndependentOfState := by
  unfold Obligations.LoadIndependentOfState
  intro s₁ s₂ m₁ m₂ img ok h₁ h₂ hp
  cases hv : parseImage s₁.params img ok with
  | error e => exact .inl ⟨e, exec_load_of_parse_error h₁ hv, exec_load_of_parse_error h₂ (hp ▸ hv)⟩
  | ok c => exact .inr ⟨c, exec_load_of_parse_ok h₁ hv, exec_load_of_parse_ok h₂ (hp ▸ hv)⟩

end Sys2Proof.Machine
end

section
/-! `RESET` twice is `RESET` once (spec/43_facade_scheduler.md R242 to R244). The last step of the reset procedure puts in
a `pc` alone, and the four steps before it do not look at the `pc` and are idempotent. -/

namespace Sys2Proof.Machine

/-- Steps 1 to 4 of `ResetProcedure`: all but the vector read (R242). -/
def resetBeforeVector {n : Nat} (k : Collaborators n) (m : Ncore) : Ncore :=
  resetChips k (clearInterrupts (clearCounters (resetBanks (fillArrays m))))

theorem resetProcedure_eq (p : Params) {n : Nat} (k : Collaborators n) (m : Ncore) :
    resetProcedure p k m = loadResetVector p (resetBeforeVector k m) := rfl

/-- The `RESET` column of R44, the `pc` not yet loaded: only the record and the collaborators' states depend on the
machine before. -/
theorem resetBeforeVector_eq {n : Nat} (k : Collaborators n) (m : Ncore) : resetBeforeVector k m =
    { lowmem := [], ppuregs := [], apuregs := [], cart := m.cart.map clearBanks
      cpuSteps := 0, ppuSteps := 0, apuSteps := 0, nmiPending := false, irqLine := false
      cpu := k.cpu.reset m.cpu, ppu := k.ppu.reset m.ppu, apu := k.apu.reset m.apu } := rfl

@[simp] theorem clearBanks_clearBanks (c : Cart) : clearBanks (clearBanks c) = clearBanks c := rfl

theorem resetBeforeVector_idem {n : Nat} (k : Collaborators n) (m : Ncore) :
    resetBeforeVector k (resetBeforeVector k m) = resetBeforeVector k m := by
  have hcart : (m.cart.map clearBanks).map clearBanks = m.cart.map clearBanks := by
    cases m.cart with
    | none => rfl
    | some c => exact congrArg some (clearBanks_clearBanks c)
  simp only [resetBeforeVector_eq, hcart, k.cpu.reset_reset, k.ppu.reset_reset, k.apu.reset_reset]

/-- `CpuReset` does not look at `pc` (R256), so the vector an earlier reset loaded leaves no trace. -/
theorem resetBeforeVector_loadResetVector (p : Params) {n : Nat} (k : Collaborators n) (m : Ncore) :
    resetBeforeVector k (loadResetVector p m) = resetBeforeVector k m := by
  simp only [resetBeforeVector_eq, loadResetVector, Ncore.setCpu_cart, Ncore.setCpu_cpu, Ncore.setCpu_ppu,
    Ncore.setCpu_apu, k.cpu.reset_setPc]

theorem resetProcedure_idem (p : Params) {n : Nat} (k : Collaborators n) (m : Ncore) :
    resetProcedure p k (resetProcedure p k m) = resetProcedure p k m := by
  simp only [resetProcedure_eq, resetBeforeVector_loadResetVector, resetBeforeVector_idem]

theorem exec_reset_of_live {s : State} {m : Ncore} (hlive : s.life = .live m) :
    exec .reset s = .next ((s.setLife (.live (resetProcedure s.params s.chips m))).setResult .nothing) :=
  onLive_live hlive _

/-- Settles O18: a live machine's `RESET` is its reset procedure, which is idempotent under the same parameters and
collaborators. -/
theorem resetTwiceIsResetOnce : Obligations.ResetTwiceIsResetOnce := by
  unfold Obligations.ResetTwiceIsResetOnce
  intro s m hlive
  refine ⟨_, exec_reset_of_live hlive, (exec_reset_of_live rfl).trans ?_⟩
  exact congrArg (commit s · .nothing) (resetProcedure_idem s.params s.chips m)

end Sys2Proof.Machine
end

section
/-! The operations by kind: the seven bus reads are one and the seven bus writes are one, told apart by the region alone
(spec/40_bus_access.md R140, R141). -/

namespace Sys2Proof.Machine

/-- The case split that takes the bus reads as `readOp` and the bus writes as `writeOp`. -/
theorem instr_kinds {motive : Instr → Prop} (busRead : ∀ r a, motive (readOp r a))
    (busWrite : ∀ r a d, motive (writeOp r a d)) (chrRd : ∀ v, motive (.chrRd v)) (chrWr : ∀ v d, motive (.chrWr v d))
    (create : motive .create) (reset : motive .reset) (load : ∀ img ok, motive (.load img ok)) (tick : motive .tick)
    (inspect : motive .inspect) (readmem : ∀ a, motive (.readmem a)) (writemem : ∀ a d, motive (.writemem a d))
    (destroy : motive .destroy) : ∀ i, motive i
  | .rdRam a => busRead .ram a
  | .rdPpu a => busRead .ppu a
  | .rdIox a => busRead .iox a
  | .rdApu a => busRead .apu a
  | .rdPrg a => busRead .prg a
  | .rdSram a => busRead .sram a
  | .rdExp a => busRead .exp a
  | .wrRam a d => busWrite .ram a d
  | .wrPpu a d => busWrite .ppu a d
  | .wrIox a d => busWrite .iox a d
  | .wrApu a d => busWrite .apu a d
  | .wrPrg a d => busWrite .prg a d
  | .wrSram a d => busWrite .sram a d
  | .wrExp a d => busWrite .exp a d
  | .chrRd v => chrRd v
  | .chrWr v d => chrWr v d
  | .create => create
  | .reset => reset
  | .load img ok => load img ok
  | .tick => tick
  | .inspect => inspect
  | .readmem a => readmem a
  | .writemem a d => writemem a d
  | .destroy => destroy

theorem readOp_wellFormed_iff {r : Region} {a : Addr} : (readOp r a).wellFormed = true ↔ regionOf a = r := by
  cases r <;> exact decide_eq_true_iff

theorem writeOp_wellFormed_iff {r : Region} {a : Addr} {d : Byte} :
    (writeOp r a d).wellFormed = true ↔ regionOf a = r := by
  cases r <;> exact decide_eq_true_iff

end Sys2Proof.Machine
end

section
/-! Errors (spec/60_exceptions.md R280): only `LOAD` returns one, it comes from the parser, and it changes nothing. -/

namespace Sys2Proof.Machine

/-- The parser reports four errors, and a `TruncatedImage` names fewer bytes than expected (spec/30_encoding.md R107). -/
theorem parseImage_error {p : Params} {s : List Byte} {ok : Bool} {e : LoadError} (h : parseImage p s ok = .error e) :
    (∃ found, e = .badMagic p.magic.toList found) ∨
    (∃ expected actual, e = .truncatedImage expected actual ∧ actual < expected) ∨
    (∃ id, e = .unsupportedMapper id) ∨ e = .outOfMemory := by
  unfold parseImage at h
  split_ifs at h with hmagic hheader halloc hrom hvrom
  · cases h; exact .inl ⟨_, rfl⟩
  · cases h; exact .inr (.inl ⟨_, _, rfl, hheader⟩)
  · cases h; exact .inr (.inr (.inr rfl))
  · cases h; exact .inr (.inl ⟨_, _, rfl, hrom⟩)
  · cases h; exact .inr (.inl ⟨_, _, rfl, hvrom⟩)
  · split at h
    · cases h; exact .inr (.inr (.inl ⟨_, rfl⟩))
    · cases h

/-- An error is the result of no other operation: each of them returns a byte, a snapshot or nothing (R106). -/
theorem load_of_result_loadError {i : Instr} {s t : State} {e : LoadError} (h : exec i s = .next t)
    (he : t.result = .loadError e) : ∃ img ok, i = .load img ok := by
  obtain ⟨hbyte, -, hsnapshot, hnothing⟩ := resultKindsAsStated i s t h
  have noByte : ¬ ∃ b, t.result = .byte b := by simp [he]
  have noSnapshot : ¬ ∃ v, t.result = .snapshot v := by simp [he]
  have notNothing : t.result ≠ .nothing := by simp [he]
  cases i using instr_kinds with
  | load img ok => exact ⟨img, ok, rfl⟩
  | busRead r a => exact absurd (hbyte (.inl ⟨r, a, rfl⟩)) noByte
  | chrRd v => exact absurd (hbyte (.inr (.inl ⟨v, rfl⟩))) noByte
  | readmem a => exact absurd (hbyte (.inr (.inr ⟨a, rfl⟩))) noByte
  | inspect => exact absurd (hsnapshot rfl) noSnapshot
  | busWrite r a d => exact absurd (hnothing (.inl ⟨r, a, d, rfl⟩)) notNothing
  | chrWr v d => exact absurd (hnothing (by simp)) notNothing
  | writemem a d => exact absurd (hnothing (by simp)) notNothing
  | create => exact absurd (hnothing (by simp)) notNothing
  | reset => exact absurd (hnothing (by simp)) notNothing
  | tick => exact absurd (hnothing (by simp)) notNothing
  | destroy => exact absurd (hnothing (by simp)) notNothing

/-- Settles O24: the operation is a `LOAD`, and a `LOAD` that answers with an error is in the parser's error case. -/
theorem loadErrorChangesNothing : Obligations.LoadErrorChangesNothing := by
  unfold Obligations.LoadErrorChangesNothing
  intro i s t e h he
  obtain ⟨img, ok, rfl⟩ := load_of_result_loadError h he
  obtain ⟨m, hlive, ⟨c, -, rfl⟩ | ⟨e', hparse, rfl⟩⟩ := exec_load_next h
  · cases he
  · cases he
    exact ⟨⟨img, ok, rfl⟩, rfl, ⟨m, hlive⟩, parseImage_error hparse⟩

end Sys2Proof.Machine
end

section
/-! Completion (spec/60_exceptions.md R286): on a live machine no well-formed operation but `CREATE` is refused. -/

namespace Sys2Proof.Machine

theorem onLive_completes {s : State} {m : Ncore} {f : Ncore → Out} (hlive : s.life = .live m)
    (hf : ∃ t, f m = .next t) : ∃ t, onLive s f = .next t :=
  (onLive_live hlive f).symm ▸ hf

theorem onRegion_completes {r : Region} {a : Addr} {s : State} {m : Ncore} {f : Ncore → Out} (hlive : s.life = .live m)
    (hr : regionOf a = r) (hf : ∃ t, f m = .next t) : ∃ t, onRegion r a s f = .next t :=
  (onRegion_live hlive hr f).symm ▸ hf

/-- `LOAD` completes whatever the parser's verdict: an error is a result (R280). -/
theorem exec_load_completes {s : State} {m : Ncore} (hlive : s.life = .live m) (img : List Byte) (ok : Bool) :
    ∃ t, exec (.load img ok) s = .next t := by
  cases hparse : parseImage s.params img ok with
  | ok c => exact ⟨_, exec_load_of_parse_ok hlive hparse⟩
  | error e => exact ⟨_, exec_load_of_parse_error hlive hparse⟩

theorem exec_completes {i : Instr} {s : State} {m : Ncore} (hlive : s.life = .live m) (hi : i.wellFormed = true)
    (hcreate : i ≠ .create) : ∃ t, exec i s = .next t := by
  cases i using instr_kinds with
  | busRead r a =>
    rw [exec_readOp]
    exact onRegion_completes hlive (readOp_wellFormed_iff.mp hi) ⟨_, rfl⟩
  | busWrite r a d =>
    rw [exec_writeOp]
    exact onRegion_completes hlive (writeOp_wellFormed_iff.mp hi) ⟨_, rfl⟩
  | chrRd v => exact onLive_completes hlive ⟨_, rfl⟩
  | chrWr v d => exact onLive_completes hlive ⟨_, rfl⟩
  | create => exact absurd rfl hcreate
  | reset => exact ⟨_, exec_reset_of_live hlive⟩
  | load img ok => exact exec_load_completes hlive img ok
  | tick => exact onLive_completes hlive ⟨_, rfl⟩
  | inspect => exact onLive_completes hlive ⟨_, rfl⟩
  | readmem a => exact onLive_completes hlive ⟨_, rfl⟩
  | writemem a d => exact onLive_completes hlive ⟨_, rfl⟩
  | destroy => exact onLive_completes hlive ⟨_, rfl⟩

/-- Settles O53: on a live machine each operation's own part answers next; and there is no fault to answer with. -/
theorem liveOperationsComplete : Obligations.LiveOperationsComplete := by
  unfold Obligations.LiveOperationsComplete
  exact ⟨fun i s m => exec_completes, fun i s r => nomatch r⟩

end Sys2Proof.Machine
end

section
/-! The bytes of a request (spec/30_encoding.md R100 to R104, log 7, log 8): the decoder undoes the encoder and accepts
nothing else, and the row of a `BUS` word is that of the address ranges (R102). -/

namespace Sys2Proof.Machine

/-! ### Words and their bytes -/

theorem byteOf_append_byteOf (a : Addr) : byteOf a 1 ++ byteOf a 0 = a := by
  refine BitVec.eq_of_toNat_eq ?_
  rw [toNat_append_eq, byteOf_toNat, byteOf_toNat]
  omega

theorem byteOf_append (hi lo : Byte) : byteOf (hi ++ lo) 0 = lo ∧ byteOf (hi ++ lo) 1 = hi := by
  have := hi.isLt
  have := lo.isLt
  constructor <;> refine BitVec.eq_of_toNat_eq ?_ <;> rw [byteOf_toNat, toNat_append_eq] <;> omega

theorem busWord_bytes (w : BitVec 17) : (byteOf w 2 ++ (byteOf w 1 ++ byteOf w 0)).setWidth 17 = w := by
  refine BitVec.eq_of_toNat_eq ?_
  simp only [BitVec.toNat_setWidth, toNat_append_eq, byteOf_toNat]
  omega

theorem chrWord_bytes (w : BitVec 14) : (byteOf w 1 ++ byteOf w 0).setWidth 14 = w := by
  refine BitVec.eq_of_toNat_eq ?_
  simp only [BitVec.toNat_setWidth, toNat_append_eq, byteOf_toNat]
  omega

/-- No bit of the top byte of a `BUS` word lies above the word. -/
theorem busWord_topByte (w : BitVec 17) : byteOf w 2 &&& 0xFE#8 = 0#8 := by
  refine (and_high_zero 1).mpr ?_
  rw [byteOf_toNat]
  omega

/-- No bit of the top byte of a `CHR` word lies above the word. -/
theorem chrWord_topByte (w : BitVec 14) : byteOf w 1 &&& 0xC0#8 = 0#8 := by
  refine (and_high_zero 6).mpr ?_
  rw [byteOf_toNat]
  omega

theorem bytes_of_busWord {b0 b1 b2 : Byte} (h : b2 &&& 0xFE#8 = 0#8) {w : BitVec 17}
    (hw : w = (b2 ++ (b1 ++ b0)).setWidth 17) : [byteOf w 0, byteOf w 1, byteOf w 2] = [b0, b1, b2] := by
  have h2 : b2.toNat < 2 ^ 1 := (and_high_zero 1).mp h
  have h0 := b0.isLt
  have h1 := b1.isLt
  have hn : w.toNat = b2.toNat * 65536 + b1.toNat * 256 + b0.toNat := by
    rw [hw]
    simp only [BitVec.toNat_setWidth, toNat_append_eq]
    omega
  simp only [List.cons.injEq, and_true, ← BitVec.toNat_inj, byteOf_toNat, hn]
  omega

theorem bytes_of_chrWord {b0 b1 : Byte} (h : b1 &&& 0xC0#8 = 0#8) {w : BitVec 14}
    (hw : w = (b1 ++ b0).setWidth 14) : [byteOf w 0, byteOf w 1] = [b0, b1] := by
  have h1 : b1.toNat < 2 ^ 6 := (and_high_zero 6).mp h
  have h0 := b0.isLt
  have hn : w.toNat = b1.toNat * 256 + b0.toNat := by
    rw [hw]
    simp only [BitVec.toNat_setWidth, toNat_append_eq]
    omega
  simp only [List.cons.injEq, and_true, ← BitVec.toNat_inj, byteOf_toNat, hn]
  omega

/-! ### Words and their fields -/

@[simp] theorem busWordAddr_busWord (wr : Bool) (a : Addr) : busWordAddr (busWord wr a) = a := by
  refine BitVec.eq_of_toNat_eq ?_
  have := a.isLt
  rw [busWordAddr_toNat, busWord_toNat]
  split <;> omega

@[simp] theorem chrWordAddr_chrWord (wr : Bool) (v : PatAddr) : chrWordAddr (chrWord wr v) = v := by
  refine BitVec.eq_of_toNat_eq ?_
  have := v.isLt
  rw [chrWordAddr_toNat, chrWord_toNat]
  split <;> omega

/-- A `BUS` word is its `rw` bit and its address. -/
theorem busWord_busWordAddr {w : BitVec 17} {wr : Bool} (h : wr = true ↔ 0x10000 ≤ w.toNat) :
    busWord wr (busWordAddr w) = w := by
  refine BitVec.eq_of_toNat_eq ?_
  have := w.isLt
  rw [busWord_toNat, busWordAddr_toNat, if_congr h rfl rfl]
  split <;> omega

/-- A `CHR` word is its `rw` bit and its pattern address. -/
theorem chrWord_chrWordAddr {w : BitVec 14} {wr : Bool} (h : wr = true ↔ 0x2000 ≤ w.toNat) :
    chrWord wr (chrWordAddr w) = w := by
  refine BitVec.eq_of_toNat_eq ?_
  have := w.isLt
  rw [chrWord_toNat, chrWordAddr_toNat, if_congr h rfl rfl]
  split <;> omega

/-- The pattern of `CHR.WR` is the `rw` bit (R103). -/
theorem chrWord_rw (w : BitVec 14) : w &&& 0x2000#14 = 0x2000#14 ↔ 0x2000 ≤ w.toNat := by
  have hw := w.isLt
  have hmask : (w &&& 0x2000#14).toNat = w.toNat / 2 ^ 13 * 2 ^ 13 := and_highMask w 13
  rw [← BitVec.toNat_inj, hmask, show (0x2000#14).toNat = 2 ^ 13 from rfl]
  omega

theorem decodeChrWord_eq (w : BitVec 14) (rest : List Byte) : decodeChrWord w rest =
    if 0x2000 ≤ w.toNat then dataOperand rest (.chrWr (chrWordAddr w)) else noOperands rest (.chrRd (chrWordAddr w)) :=
  if_congr (chrWord_rw w) rfl rfl

/-! ### Decoding what the encoder writes -/

theorem decode_busBytes (wr : Bool) (a : Addr) (rest : List Byte) :
    decode .bus (busBytes wr a ++ rest) = decodeBusWord (busWord wr a) rest := by
  simp only [busBytes, List.cons_append, List.nil_append, decode, busWord_topByte, if_true, busWord_bytes]

theorem decode_chrBytes (wr : Bool) (v : PatAddr) (rest : List Byte) :
    decode .chr (chrBytes wr v ++ rest) = decodeChrWord (chrWord wr v) rest := by
  simp only [chrBytes, List.cons_append, List.nil_append, decode, chrWord_topByte, if_true, chrWord_bytes]

theorem encode_readOp (r : Region) (a : Addr) : encode (readOp r a) = busBytes false a := by
  cases r <;> rfl

theorem encode_writeOp (r : Region) (a : Addr) (d : Byte) : encode (writeOp r a d) = busBytes true a ++ [d] := by
  cases r <;> rfl

theorem decode_encode_readOp {r : Region} {a : Addr} (hr : regionOf a = r) :
    decode .bus (encode (readOp r a)) = .ok (readOp r a) := by
  have hrw : ¬ 0x10000 ≤ (busWord false a).toNat := by
    have := a.isLt
    rw [busWord_toNat, if_neg Bool.false_ne_true]
    omega
  rw [encode_readOp, ← List.append_nil (busBytes false a), decode_busBytes, decodeBusWord_eq, if_neg hrw,
    busWordAddr_busWord, hr]
  rfl

theorem decode_encode_writeOp {r : Region} {a : Addr} (hr : regionOf a = r) (d : Byte) :
    decode .bus (encode (writeOp r a d)) = .ok (writeOp r a d) := by
  have hrw : 0x10000 ≤ (busWord true a).toNat := by
    rw [busWord_toNat, if_pos rfl]
    omega
  rw [encode_writeOp, decode_busBytes, decodeBusWord_eq, if_pos hrw, busWordAddr_busWord, hr]
  rfl

theorem decode_encode_chrRd (v : PatAddr) : decode .chr (encode (.chrRd v)) = .ok (.chrRd v) := by
  have hrw : ¬ 0x2000 ≤ (chrWord false v).toNat := by
    have := v.isLt
    rw [chrWord_toNat, if_neg Bool.false_ne_true]
    omega
  rw [encode, ← List.append_nil (chrBytes false v), decode_chrBytes, decodeChrWord_eq, if_neg hrw, chrWordAddr_chrWord]
  rfl

theorem decode_encode_chrWr (v : PatAddr) (d : Byte) : decode .chr (encode (.chrWr v d)) = .ok (.chrWr v d) := by
  have hrw : 0x2000 ≤ (chrWord true v).toNat := by
    rw [chrWord_toNat, if_pos rfl]
    omega
  rw [encode, decode_chrBytes, decodeChrWord_eq, if_pos hrw, chrWordAddr_chrWord]
  rfl

/-- Settles O36: the word's fields and the operand bytes come back, and the region of a well-formed operation's address is
the operation's own. -/
theorem decodeEncodeRoundTrip : Obligations.DecodeEncodeRoundTrip := by
  unfold Obligations.DecodeEncodeRoundTrip
  intro i hi
  cases i using instr_kinds with
  | busRead r a =>
    rw [readOp_port]
    exact decode_encode_readOp (readOp_wellFormed_iff.mp hi)
  | busWrite r a d =>
    rw [writeOp_port]
    exact decode_encode_writeOp (writeOp_wellFormed_iff.mp hi) d
  | chrRd v => exact decode_encode_chrRd v
  | chrWr v d => exact decode_encode_chrWr v d
  | create => rfl
  | reset => rfl
  | load img ok => cases ok <;> rfl
  | tick => rfl
  | inspect => rfl
  | readmem a => exact congrArg (fun x => Except.ok (Instr.readmem x)) (byteOf_append_byteOf a)
  | writemem a d => exact congrArg (fun x => Except.ok (Instr.writemem x d)) (byteOf_append_byteOf a)
  | destroy => rfl

/-! ### What the decoder accepts -/

theorem decodeBusWord_accepts {w : BitVec 17} {rest : List Byte} {i : Instr} (h : decodeBusWord w rest = .ok i) :
    i.wellFormed = true ∧ encode i = [byteOf w 0, byteOf w 1, byteOf w 2] ++ rest := by
  rw [decodeBusWord_eq] at h
  split_ifs at h with hrw
  · obtain ⟨d, rfl, rfl⟩ := dataOperand_ok h
    refine ⟨writeOp_wellFormed_iff.mpr rfl, ?_⟩
    rw [encode_writeOp, busBytes, busWord_busWordAddr (iff_of_true rfl hrw)]
  · obtain ⟨rfl, rfl⟩ := noOperands_ok h
    refine ⟨readOp_wellFormed_iff.mpr rfl, ?_⟩
    rw [encode_readOp, busBytes, busWord_busWordAddr (iff_of_false Bool.false_ne_true hrw), List.append_nil]

theorem decodeChrWord_accepts {w : BitVec 14} {rest : List Byte} {i : Instr} (h : decodeChrWord w rest = .ok i) :
    i.wellFormed = true ∧ encode i = [byteOf w 0, byteOf w 1] ++ rest := by
  rw [decodeChrWord_eq] at h
  split_ifs at h with hrw
  · obtain ⟨d, rfl, rfl⟩ := dataOperand_ok h
    refine ⟨rfl, ?_⟩
    rw [encode, chrBytes, chrWord_chrWordAddr (iff_of_true rfl hrw)]
  · obtain ⟨rfl, rfl⟩ := noOperands_ok h
    refine ⟨rfl, ?_⟩
    rw [encode, chrBytes, chrWord_chrWordAddr (iff_of_false Bool.false_ne_true hrw), List.append_nil]

theorem noOperands_accepts {code : Byte} {rest : List Byte} {i j : Instr} (hi : i.wellFormed = true ∧ encode i = [code])
    (h : noOperands rest i = .ok j) : j.wellFormed = true ∧ encode j = code :: rest := by
  obtain ⟨rfl, rfl⟩ := noOperands_ok h
  exact hi

theorem decodeHostOp_accepts {code : Byte} {rest : List Byte} {i : Instr} (h : decodeHostOp code.toNat rest = .ok i) :
    i.wellFormed = true ∧ encode i = code :: rest := by
  generalize hop : code.toNat = op at h
  obtain rfl : code = BitVec.ofNat 8 op := by rw [← hop, BitVec.ofNat_toNat, BitVec.setWidth_eq]
  unfold decodeHostOp at h
  split at h
  case h_3 =>
    split at h
    · cases h
    · split_ifs at h with h0 h1
      · cases h; subst h0; exact ⟨rfl, rfl⟩
      · cases h; subst h1; exact ⟨rfl, rfl⟩
  case h_6 =>
    split at h
    · cases h
      obtain ⟨hlo, hhi⟩ := byteOf_append _ _
      exact ⟨rfl, by rw [encode, hlo, hhi]⟩
    · cases h
    · cases h
  case h_7 =>
    split at h
    · cases h
      obtain ⟨hlo, hhi⟩ := byteOf_append _ _
      exact ⟨rfl, by rw [encode, hlo, hhi]⟩
    · cases h
    · cases h
  case h_9 => cases h
  all_goals exact noOperands_accepts ⟨rfl, rfl⟩ h

/-- Settles O37: the port is that of `decode_port`; at each port the bytes are the word's, and the word is that of the
operation read. -/
theorem decodeAcceptsOnlyEncodings : Obligations.DecodeAcceptsOnlyEncodings := by
  unfold Obligations.DecodeAcceptsOnlyEncodings
  intro port bytes i h
  suffices hi : i.wellFormed = true ∧ encode i = bytes from ⟨hi.1, decode_port h, hi.2⟩
  unfold decode at h
  split at h
  · split_ifs at h with htop
    obtain ⟨hwf, henc⟩ := decodeBusWord_accepts h
    exact ⟨hwf, by rw [henc, bytes_of_busWord htop rfl]; rfl⟩
  · cases h
  · split_ifs at h with htop
    obtain ⟨hwf, henc⟩ := decodeChrWord_accepts h
    exact ⟨hwf, by rw [henc, bytes_of_chrWord htop rfl]; rfl⟩
  · cases h
  · exact decodeHostOp_accepts h
  · cases h

/-! ### The rows of format `BUS` -/

/-- Settles O35: the row selected fits the word, and bit 16 is the `rw` bit. -/
theorem patternsAgreeWithRanges : Obligations.PatternsAgreeWithRanges := by
  unfold Obligations.PatternsAgreeWithRanges
  intro w
  obtain ⟨row, hrow, hwrite, hregion⟩ := busRow_fits w
  exact ⟨row, hrow, hregion, hwrite.trans (getLsbD_rw w).symm⟩

/-- Settles O34: seventeen words, evaluated. -/
theorem specWordsDecode : Obligations.SpecWordsDecode := by
  unfold Obligations.SpecWordsDecode
  decide

end Sys2Proof.Machine
end

section
/-! The CPU-bus transactions one by one (spec/40_bus_access.md R144 to R155), and that `READMEM` and `WRITEMEM` are the bus
read and the bus write of the address's region (spec/43_facade_scheduler.md R248, R249). -/

namespace Sys2Proof.Machine

/-! ### `READMEM` and `WRITEMEM` -/

theorem exec_readmem_of_live {s : State} {m : Ncore} (hlive : s.life = .live m) (a : Addr) :
    exec (.readmem a) s = .next (s.setResult (.byte (memRead s.params m a))) :=
  onLive_live hlive _

theorem exec_readmem_answers {s : State} {m : Ncore} {a : Addr} {b : Byte} (hlive : s.life = .live m)
    (hb : memRead s.params m a = b) : exec (.readmem a) s = .next (s.setResult (.byte b)) :=
  hb ▸ exec_readmem_of_live hlive a

theorem exec_writemem_of_live {s : State} {m : Ncore} (hlive : s.life = .live m) (a : Addr) (d : Byte) :
    exec (.writemem a d) s = .next ((s.setLife (.live (memWrite s.params m a d))).setResult .nothing) :=
  onLive_live hlive _

theorem exec_readOp_of_live {s : State} {m : Ncore} (hlive : s.life = .live m) {r : Region} {a : Addr}
    (hr : regionOf a = r) : exec (readOp r a) s = .next (s.setResult (.byte (memRead s.params m a))) := by
  rw [exec_readOp, onRegion_live hlive hr, reply]

theorem exec_writeOp_of_live {s : State} {m : Ncore} (hlive : s.life = .live m) {r : Region} {a : Addr}
    (hr : regionOf a = r) (d : Byte) :
    exec (writeOp r a d) s = .next ((s.setLife (.live (memWrite s.params m a d))).setResult .nothing) := by
  rw [exec_writeOp, onRegion_live hlive hr, commit]

/-- Settles O27: both are the decoded read of a live machine. -/
theorem readmemIsTheBusRead : Obligations.ReadmemIsTheBusRead := by
  unfold Obligations.ReadmemIsTheBusRead
  intro s m a hlive
  rw [exec_readmem_of_live hlive, exec_readOp_of_live hlive rfl]
  exact ⟨rfl, rfl⟩

/-- Settles O28: both are the decoded write of a live machine. -/
theorem writememIsTheBusWrite : Obligations.WritememIsTheBusWrite := by
  unfold Obligations.WritememIsTheBusWrite
  intro s m a d hlive
  rw [exec_writemem_of_live hlive, exec_writeOp_of_live hlive rfl]
  exact ⟨rfl, rfl⟩

/-- A bus read sees the three arrays and the record alone (R77). -/
theorem memRead_congr (p : Params) {m m' : Ncore} (hlow : m.lowmem = m'.lowmem) (hppu : m.ppuregs = m'.ppuregs)
    (hapu : m.apuregs = m'.apuregs) (hcart : m.cart = m'.cart) (a : Addr) : memRead p m a = memRead p m' a := by
  simp only [memRead, readRam, readPpu, readApu, readPrg, readSram, hlow, hppu, hapu, hcart]

/-- A bus read is the read of the address's own region, so machines that agree on that one answer alike. -/
theorem memRead_eq_of_reads {p : Params} {m m' : Ncore} {a : Addr}
    (hram : regionOf a = .ram → readRam p m' a = readRam p m a)
    (hppu : regionOf a = .ppu → readPpu p m' a = readPpu p m a)
    (hapu : regionOf a = .apu → readApu p m' a = readApu p m a)
    (hprg : regionOf a = .prg → readPrg p m' a = readPrg p m a)
    (hsram : regionOf a = .sram → readSram p m' a = readSram p m a) : memRead p m' a = memRead p m a := by
  cases hr : regionOf a <;> simp only [memRead, hr]
  case ram => exact hram hr
  case ppu => exact hppu hr
  case apu => exact hapu hr
  case prg => exact hprg hr
  case sram => exact hsram hr

/-- Settles O45: the byte is the bus read of either machine. -/
theorem busReadsIgnoreChips : Obligations.BusReadsIgnoreChips := by
  unfold Obligations.BusReadsIgnoreChips
  intro s₁ s₂ m₁ m₂ a h₁ h₂ hp hlow hppu hapu hcart
  exact ⟨_, exec_readmem_of_live h₁ a,
    exec_readmem_answers h₂ (hp ▸ (memRead_congr s₁.params hlow hppu hapu hcart a).symm)⟩

/-- Settles O31: the region test of the operation fails. -/
theorem addressOutsideRegionRefused : Obligations.AddressOutsideRegionRefused := by
  unfold Obligations.AddressOutsideRegionRefused
  intro s m r a d hlive hr
  simp only [exec_readOp, exec_writeOp, onRegion, onLive_live hlive, if_neg hr, and_self]

/-! ### A write that leaves the machine as it is -/

theorem setLife_self {s : State} {m : Ncore} (hlive : s.life = .live m) : s.setLife (.live m) = s := by
  rw [← hlive]
  rfl

theorem commit_self {s : State} {m : Ncore} (hlive : s.life = .live m) (r : Result) :
    commit s m r = .next (s.setResult r) := by
  rw [commit, setLife_self hlive]

/-! ### Places without storage -/

/-- Settles O4: both regions answer open bus. -/
theorem rdIoxRdExpAnswerOpenBus : Obligations.RdIoxRdExpAnswerOpenBus := by
  unfold Obligations.RdIoxRdExpAnswerOpenBus
  exact fun s m a hlive => ⟨fun hlo hhi => onRegion_live hlive (regionOf_iox.mpr ⟨hlo, hhi⟩) _,
    fun hlo hhi => onRegion_live hlive (regionOf_exp.mpr ⟨hlo, hhi⟩) _⟩

/-- Settles O10: both writes commit the machine as it was. -/
theorem wrIoxWrExpChangeNothing : Obligations.WrIoxWrExpChangeNothing := by
  unfold Obligations.WrIoxWrExpChangeNothing
  exact fun s m a d hlive =>
    ⟨fun hlo hhi => (onRegion_live hlive (regionOf_iox.mpr ⟨hlo, hhi⟩) _).trans (commit_self hlive .nothing),
      fun hlo hhi => (onRegion_live hlive (regionOf_exp.mpr ⟨hlo, hhi⟩) _).trans (commit_self hlive .nothing)⟩

/-! ### Program ROM -/

/-- A live machine's loaded record meets the record's invariant. -/
theorem cart_wf_of_live {s : State} {m : Ncore} {c : Cart} (hwf : s.wf = true) (hlive : s.life = .live m)
    (hc : m.cart = some c) : Cart.wf s.params c = true := by
  obtain ⟨-, hm⟩ := (state_wf_live hlive).mp hwf
  obtain ⟨-, -, -, -, -, -, -, -, -, hcart⟩ := ncore_wf_iff.mp hm
  exact hcart c hc

theorem romRead_of_lt (p : Params) {buf : List Byte} {i : Nat} (h : i < buf.length) :
    buf[i]? = some (romRead p buf i) := by
  simp [romRead, h]

theorem romSize_eq_zero_iff {c : Cart} : romSize c = 0 ↔ c.hdr.prgBankCount = 0#8 := by
  rw [romSize, ← BitVec.toNat_inj]
  simp

theorem readPrg_of_cart (p : Params) {m : Ncore} {c : Cart} (hc : m.cart = some c) (a : Addr) :
    readPrg p m a = if romSize c = 0 then p.openBus else romRead p c.rom (translatePrg c a) := by
  simp only [readPrg, hc]

/-- The byte of a program ROM with banks is in the buffer, at the mapper's offset (R173). -/
theorem readPrg_of_banks {p : Params} {m : Ncore} {c : Cart} (hwf : Cart.wf p c = true) (hc : m.cart = some c)
    (h0 : c.hdr.prgBankCount ≠ 0#8) (a : Addr) : c.rom[translatePrg c a]? = some (readPrg p m a) := by
  obtain ⟨hrom, -⟩ := cart_wf_iff.mp hwf
  have hsize : romSize c ≠ 0 := mt romSize_eq_zero_iff.mp h0
  rw [readPrg_of_cart p hc, if_neg hsize]
  exact romRead_of_lt p (hrom ▸ translatePrg_lt (Nat.pos_of_ne_zero hsize) a)

theorem translatePrg_of_ne_prgsw {c : Cart} (h : c.variant ≠ .prgsw) (a : Addr) :
    translatePrg c a = (a &&& 0x7FFF#16).toNat % (0x4000 * c.hdr.prgBankCount.toNat) := by
  unfold translatePrg
  cases hv : c.variant with
  | fixed => rfl
  | prgsw => exact absurd hv h
  | chrsw => rfl

theorem translatePrg_of_prgsw {c : Cart} (h : c.variant = .prgsw) (a : Addr) :
    translatePrg c a = translatePrgSwitched c a := by
  simp only [translatePrg, h]

theorem translatePrg_of_prgsw_low {c : Cart} (h : c.variant = .prgsw) {a : Addr} (ha : a < 0xC000#16) :
    translatePrg c a = (c.prgBank.toNat % c.hdr.prgBankCount.toNat) * 0x4000 + (a &&& 0x3FFF#16).toNat := by
  rw [translatePrg_of_prgsw h, translatePrgSwitched, if_pos ha]

theorem translatePrg_of_prgsw_high {c : Cart} (h : c.variant = .prgsw) {a : Addr} (ha : 0xC000#16 ≤ a) :
    translatePrg c a = (c.hdr.prgBankCount.toNat - 1) * 0x4000 + (a &&& 0x3FFF#16).toNat := by
  rw [translatePrg_of_prgsw h, translatePrgSwitched, if_neg (BitVec.not_lt.mpr ha)]

/-- Settles O5: the byte of `readPrg`; with banks it lies in the buffer at the offset of the variant. -/
theorem rdPrgAnswersBankedRom : Obligations.RdPrgAnswersBankedRom := by
  unfold Obligations.RdPrgAnswersBankedRom
  intro s m a hwf hlive ha
  refine ⟨readPrg s.params m a, onRegion_live hlive (regionOf_prg.mpr ha) _, fun hc => by simp only [readPrg, hc],
    fun c hc => ⟨fun h0 => ?_, fun h0 => ?_⟩⟩
  · rw [readPrg_of_cart _ hc, if_pos (romSize_eq_zero_iff.mpr h0)]
  · have hbyte := readPrg_of_banks (cart_wf_of_live hwf hlive hc) hc h0 a
    exact ⟨fun hv => translatePrg_of_ne_prgsw hv a ▸ hbyte, fun hv hlo => translatePrg_of_prgsw_low hv hlo ▸ hbyte,
      fun hv hhi => translatePrg_of_prgsw_high hv hhi ▸ hbyte⟩

theorem onWrite_of_fixed {c : Cart} (hv : c.variant = .fixed) (a : Addr) (d : Byte) : onWrite c a d = c := by
  simp only [onWrite, hv]

theorem onWrite_of_prgsw {c : Cart} (hv : c.variant = .prgsw) {a : Addr} (ha : 0x8000#16 ≤ a) (d : Byte) :
    onWrite c a d = c.setPrgBank d := by
  simp only [onWrite, hv, if_pos ha]

theorem onWrite_of_chrsw {c : Cart} (hv : c.variant = .chrsw) {a : Addr} (ha : 0x8000#16 ≤ a) (d : Byte) :
    onWrite c a d = c.setChrBank d := by
  simp only [onWrite, hv, if_pos ha]

/-- Settles O11: the write commits what `on_write` makes of the record. -/
theorem wrPrgSwitchesBankOnly : Obligations.WrPrgSwitchesBankOnly := by
  unfold Obligations.WrPrgSwitchesBankOnly
  intro s m a d hlive ha
  have hexec : exec (.wrPrg a d) s = commit s (writePrg m a d) .nothing :=
    onRegion_live hlive (regionOf_prg.mpr ha) _
  refine ⟨fun hc => ?_, fun c hc => ?_⟩
  · rw [hexec, writePrg, hc]
    exact commit_self hlive .nothing
  · have hwrite : writePrg m a d = m.setCart (some (onWrite c a d)) := by rw [writePrg, hc]
    rw [hexec, hwrite]
    refine ⟨fun hv => ?_, fun hv => ?_, fun hv => ?_⟩
    · rw [onWrite_of_fixed hv, ← hc]
      exact commit_self hlive .nothing
    · rw [onWrite_of_prgsw hv ha, commit]
    · rw [onWrite_of_chrsw hv ha, commit]

/-! ### Save RAM -/

/-- A record that announces save RAM has it, in canonical form. -/
theorem prgRam_of_wf {p : Params} {c : Cart} (hwf : Cart.wf p c = true) (h : c.hdr.hasPrgRam = true) :
    ∃ ram, c.prgRam = some ram ∧ Memory.wf p.resetFill ram = true := by
  obtain ⟨-, -, -, -, hsome, -, hram⟩ := cart_wf_iff.mp hwf
  obtain ⟨ram, hr⟩ := Option.isSome_iff_exists.mp (hsome.trans h)
  exact ⟨ram, hr, (hram ram hr).1⟩

theorem readSram_of_ram (p : Params) {m : Ncore} {c : Cart} {ram : Memory} (hc : m.cart = some c)
    (h : c.hdr.hasPrgRam = true) (hr : c.prgRam = some ram) (a : Addr) :
    readSram p m a = Memory.read p.resetFill ram (sramIndex p a) := by
  simp only [readSram, hc, h, if_true, hr]

theorem writeSram_of_ram (p : Params) {m : Ncore} {c : Cart} {ram : Memory} (hc : m.cart = some c)
    (h : c.hdr.hasPrgRam = true) (hr : c.prgRam = some ram) (a : Addr) (d : Byte) : writeSram p m a d =
      m.setCart (some (c.setPrgRam (some (Memory.write p.resetFill ram (sramIndex p a) d)))) := by
  simp only [writeSram, hc, h, if_true, hr]

/-- Settles O6: the byte of `readSram`. -/
theorem rdSramAnswersSaveRam : Obligations.RdSramAnswersSaveRam := by
  unfold Obligations.RdSramAnswersSaveRam
  intro s m a hwf hlive hlo hhi
  refine ⟨readSram s.params m a, onRegion_live hlive (regionOf_sram.mpr ⟨hlo, hhi⟩) _, fun hc => by simp only [readSram, hc],
    fun c hc => ⟨fun h => by simp only [readSram, hc, h]; rfl, fun h => ?_⟩⟩
  obtain ⟨ram, hr, -⟩ := prgRam_of_wf (cart_wf_of_live hwf hlive hc) h
  exact ⟨ram, hr, readSram_of_ram _ hc h hr a⟩

/-- Settles O12: the one store of `writeSram`, read back at every index. -/
theorem wrSramStoresOneByte : Obligations.WrSramStoresOneByte := by
  unfold Obligations.WrSramStoresOneByte
  intro s m a d hwf hlive hlo hhi
  have hexec : exec (.wrSram a d) s = commit s (writeSram s.params m a d) .nothing :=
    onRegion_live hlive (regionOf_sram.mpr ⟨hlo, hhi⟩) _
  have hkeep : writeSram s.params m a d = m → exec (.wrSram a d) s = .next (s.setResult .nothing) :=
    fun hm => by rw [hexec, hm, commit_self hlive]
  refine ⟨fun hc => hkeep (by simp only [writeSram, hc]),
    fun c hc => ⟨fun h => hkeep (by simp only [writeSram, hc, h]; rfl), fun h => ?_⟩⟩
  obtain ⟨ram, hr, hram⟩ := prgRam_of_wf (cart_wf_of_live hwf hlive hc) h
  exact ⟨ram, _, hr, by rw [hexec, writeSram_of_ram _ hc h hr]; rfl, fun i => read_write _ hram (sramIndex s.params a) i d⟩

end Sys2Proof.Machine
end

section
/-! The video port (spec/41_mapper.md R183, R184, R188 to R192). -/

namespace Sys2Proof.Machine

theorem exec_chrRd_of_live {s : State} {m : Ncore} (hlive : s.life = .live m) (v : PatAddr) :
    exec (.chrRd v) s = .next (s.setResult (.byte (chrRead s.params m v))) :=
  onLive_live hlive _

theorem exec_chrRd_answers {s : State} {m : Ncore} {v : PatAddr} {b : Byte} (hlive : s.life = .live m)
    (hb : chrRead s.params m v = b) : exec (.chrRd v) s = .next (s.setResult (.byte b)) :=
  hb ▸ exec_chrRd_of_live hlive v

theorem exec_chrWr_of_live {s : State} {m : Ncore} (hlive : s.life = .live m) (v : PatAddr) (d : Byte) :
    exec (.chrWr v d) s = .next ((s.setLife (.live (chrWrite s.params m v d))).setResult .nothing) :=
  onLive_live hlive _

/-! ### Graphics RAM and graphics ROM -/

/-- A record without graphics banks has its graphics RAM, in canonical form. -/
theorem chrRam_of_wf {p : Params} {c : Cart} (hwf : Cart.wf p c = true) (h0 : c.hdr.chrBankCount = 0#8) :
    ∃ ram, c.chrRam = some ram ∧ Memory.wf p.resetFill ram = true := by
  obtain ⟨-, -, -, hsome, -, hram, -⟩ := cart_wf_iff.mp hwf
  obtain ⟨ram, hr⟩ := Option.isSome_iff_exists.mp (hsome.trans (decide_eq_true h0))
  exact ⟨ram, hr, (hram ram hr).1⟩

theorem chrRead_of_chrRam (p : Params) {m : Ncore} {c : Cart} {ram : Memory} (hc : m.cart = some c)
    (h0 : c.hdr.chrBankCount = 0#8) (hr : c.chrRam = some ram) (v : PatAddr) :
    chrRead p m v = Memory.read p.resetFill ram (v.toNat % p.chrRamSize) := by
  simp only [chrRead, hc, h0, if_true, hr, translateChr_chrRam h0]

theorem chrWrite_of_chrRam (p : Params) {m : Ncore} {c : Cart} {ram : Memory} (hc : m.cart = some c)
    (h0 : c.hdr.chrBankCount = 0#8) (hr : c.chrRam = some ram) (v : PatAddr) (d : Byte) : chrWrite p m v d =
      m.setCart (some (c.setChrRam (some (Memory.write p.resetFill ram (v.toNat % p.chrRamSize) d)))) := by
  simp only [chrWrite, hc, h0, if_true, hr, translateChr_chrRam h0]

/-- The byte of a graphics ROM is in the buffer, at the mapper's offset (R173). -/
theorem chrRead_of_banks {p : Params} {m : Ncore} {c : Cart} (hp : 0 < p.chrRamSize) (hwf : Cart.wf p c = true)
    (hc : m.cart = some c) (h0 : c.hdr.chrBankCount ≠ 0#8) (v : PatAddr) :
    c.vrom[translateChr p c v]? = some (chrRead p m v) := by
  obtain ⟨-, hvrom, -⟩ := cart_wf_iff.mp hwf
  have hlt : translateChr p c v < c.vrom.length := by
    have hbuf := translateChr_lt hp c v
    rwa [chrBufSize, if_neg h0, ← hvrom] at hbuf
  simp only [chrRead, hc, if_neg h0]
  exact romRead_of_lt p hlt

/-- A whole bank holds every pattern address, so `FIXED` and `PRGSW` leave the address as it is (R183). -/
theorem translateChr_of_ne_chrsw (p : Params) {c : Cart} (h0 : c.hdr.chrBankCount ≠ 0#8) (hv : c.variant ≠ .chrsw)
    (v : PatAddr) : translateChr p c v = v.toNat := by
  have hfixed : translateChrFixed p c v = v.toNat := by
    have hcount := count_pos h0
    have hoff := v.isLt
    rw [translateChrFixed, chrBufSize, if_neg h0, vromSize]
    exact Nat.mod_eq_of_lt (by omega)
  unfold translateChr
  cases h : c.variant with
  | fixed => exact hfixed
  | prgsw => exact hfixed
  | chrsw => exact absurd h hv

theorem translateChr_of_chrsw (p : Params) {c : Cart} (h0 : c.hdr.chrBankCount ≠ 0#8) (hv : c.variant = .chrsw)
    (v : PatAddr) : translateChr p c v = (c.chrBank.toNat % c.hdr.chrBankCount.toNat) * 0x2000 + v.toNat := by
  simp only [translateChr, hv, translateChrSwitched, if_neg h0]

/-- Settles O13: the byte of `chrRead`; of a graphics ROM it lies in the buffer at the offset of the variant. -/
theorem chrRdAnswersPatternByte : Obligations.ChrRdAnswersPatternByte := by
  unfold Obligations.ChrRdAnswersPatternByte
  intro s m v hwf hlive
  obtain ⟨hp, -⟩ := (state_wf_live hlive).mp hwf
  refine ⟨chrRead s.params m v, exec_chrRd_of_live hlive v, fun hc => by simp only [chrRead, hc],
    fun c hc => ⟨fun h0 => ?_, fun h0 hv => ?_, fun h0 hv => ?_⟩⟩
  · obtain ⟨ram, hr, -⟩ := chrRam_of_wf (cart_wf_of_live hwf hlive hc) h0
    exact ⟨ram, hr, chrRead_of_chrRam _ hc h0 hr v⟩
  · rw [← translateChr_of_ne_chrsw s.params h0 hv]
    exact chrRead_of_banks (wf_chrRamSize hp) (cart_wf_of_live hwf hlive hc) hc h0 v
  · rw [← translateChr_of_chrsw s.params h0 hv]
    exact chrRead_of_banks (wf_chrRamSize hp) (cart_wf_of_live hwf hlive hc) hc h0 v

/-- Settles O14: the one store of `chrWrite`, read back at every index. -/
theorem chrWrStoresInChrRamOnly : Obligations.ChrWrStoresInChrRamOnly := by
  unfold Obligations.ChrWrStoresInChrRamOnly
  intro s m v d hwf hlive
  have hkeep : chrWrite s.params m v d = m → exec (.chrWr v d) s = .next (s.setResult .nothing) :=
    fun hm => by rw [exec_chrWr_of_live hlive, hm, setLife_self hlive]
  refine ⟨fun hc => hkeep (by simp only [chrWrite, hc]),
    fun c hc => ⟨fun h0 => hkeep (by simp only [chrWrite, hc, if_neg h0]), fun h0 => ?_⟩⟩
  obtain ⟨ram, hr, hram⟩ := chrRam_of_wf (cart_wf_of_live hwf hlive hc) h0
  exact ⟨ram, _, hr, by rw [exec_chrWr_of_live hlive, chrWrite_of_chrRam _ hc h0 hr],
    fun i => read_write _ hram (v.toNat % s.params.chrRamSize) i d⟩

/-! ### The port's own laws (R192) -/

theorem resetProcedure_cart (p : Params) {n : Nat} (k : Collaborators n) (m : Ncore) :
    (resetProcedure p k m).cart = m.cart.map clearBanks := rfl

theorem chrRead_resetProcedure (p : Params) {n : Nat} (k : Collaborators n) {m : Ncore} {c : Cart} (hc : m.cart = some c)
    (h0 : c.hdr.chrBankCount = 0#8) (v : PatAddr) : chrRead p (resetProcedure p k m) v = chrRead p m v := by
  have h0' : (clearBanks c).hdr.chrBankCount = 0#8 := h0
  simp only [chrRead, resetProcedure_cart, hc, Option.map_some, if_pos h0, if_pos h0', translateChr_chrRam h0,
    translateChr_chrRam h0']
  rfl

/-- Settles O42: the store is read back, and the reset procedure keeps `chr_ram`. -/
theorem chrRamPersistsAcrossReset : Obligations.ChrRamPersistsAcrossReset := by
  unfold Obligations.ChrRamPersistsAcrossReset
  intro s m c v d hwf hlive hc h0
  obtain ⟨ram, hr, hram⟩ := chrRam_of_wf (cart_wf_of_live hwf hlive hc) h0
  have hcart := congrArg Ncore.cart (chrWrite_of_chrRam s.params hc h0 hr v d)
  have hread : chrRead s.params (chrWrite s.params m v d) v = d := by
    rw [chrRead_of_chrRam _ hcart h0 rfl, read_write _ hram, if_pos rfl]
  exact ⟨_, _, exec_chrWr_of_live hlive v d, exec_chrRd_answers rfl hread, exec_reset_of_live rfl,
    exec_chrRd_answers rfl ((chrRead_resetProcedure _ _ hcart h0 v).trans hread)⟩

/-- The CPU bus does not reach `chr_ram`. -/
theorem memRead_setChrRam (p : Params) {m : Ncore} {c : Cart} (hc : m.cart = some c) (x : Option Memory) (a : Addr) :
    memRead p (m.setCart (some (c.setChrRam x))) a = memRead p m a := by
  refine memRead_eq_of_reads (fun _ => rfl) (fun _ => rfl) (fun _ => rfl) (fun _ => ?_) (fun _ => ?_)
  · unfold readPrg
    rw [hc]
    rfl
  · unfold readSram
    rw [hc]
    rfl

theorem memRead_chrWrite (p : Params) (m : Ncore) (v : PatAddr) (d : Byte) (a : Addr) :
    memRead p (chrWrite p m v d) a = memRead p m a := by
  rcases chrWrite_cases p m v d with h | ⟨c, ram, hc, -, -, h⟩ <;> rw [h]
  exact memRead_setChrRam p hc _ a

/-- Settles O43: the write stores in `chr_ram` alone, which no bus read sees. -/
theorem videoWritesInvisibleOnBus : Obligations.VideoWritesInvisibleOnBus := by
  unfold Obligations.VideoWritesInvisibleOnBus
  intro s m v d a hlive
  exact ⟨_, _, exec_chrWr_of_live hlive v d, exec_readmem_of_live hlive a,
    exec_readmem_answers rfl (memRead_chrWrite s.params m v d a)⟩

end Sys2Proof.Machine
end

section
/-! The laws of the bus (spec/40_bus_access.md R156; spec/41_mapper.md R192): a write is read back where there is storage,
and is seen at its aliases only. -/

namespace Sys2Proof.Machine

theorem read_write_same {fill : Byte} {mem : Memory} (h : Memory.wf fill mem = true) (i : Nat) (d : Byte) :
    Memory.read fill (Memory.write fill mem i d) i = d :=
  (read_write fill h i i d).trans (if_pos rfl)

theorem read_write_ne {fill : Byte} {mem : Memory} (h : Memory.wf fill mem = true) {i j : Nat} (hij : i ≠ j) (d : Byte) :
    Memory.read fill (Memory.write fill mem i d) j = Memory.read fill mem j :=
  (read_write fill h i j d).trans (if_neg hij.symm)

/-! ### A write is read back -/

theorem readSram_setPrgRam (p : Params) (m : Ncore) {c : Cart} (hs : c.hdr.hasPrgRam = true) (ram : Memory) (a : Addr) :
    readSram p (m.setCart (some (c.setPrgRam (some ram)))) a = Memory.read p.resetFill ram (sramIndex p a) :=
  readSram_of_ram p (c := c.setPrgRam (some ram)) rfl hs rfl a

/-- An address with storage behind it: of one of the three arrays, or of save RAM where the cartridge has it. -/
def Stored (m : Ncore) (a : Addr) : Prop :=
  regionOf a = .ram ∨ regionOf a = .ppu ∨ regionOf a = .apu ∨
    (regionOf a = .sram ∧ ∃ c, m.cart = some c ∧ c.hdr.hasPrgRam = true)

theorem memRead_memWrite_stored {p : Params} {m : Ncore} {a : Addr} (hm : Ncore.wf p m = true) (h : Stored m a)
    (d : Byte) : memRead p (memWrite p m a d) a = d := by
  obtain ⟨hlow, -, hppu, -, hapu, -, -, -, -, hcart⟩ := ncore_wf_iff.mp hm
  rcases h with hr | hr | hr | ⟨hr, c, hc, hs⟩ <;> simp only [memRead, memWrite, hr]
  · exact read_write_same hlow (ramIndex a) d
  · exact read_write_same hppu (ppuIndex a) d
  · exact read_write_same hapu (apuIndex a) d
  · obtain ⟨ram, hram, hwf⟩ := prgRam_of_wf (hcart c hc) hs
    rw [writeSram_of_ram p hc hs hram, readSram_setPrgRam p m hs]
    exact read_write_same hwf (sramIndex p a) d

/-- Settles O39: the store of the address's region, read at its own index. -/
theorem readAfterWriteAnswersValue : Obligations.ReadAfterWriteAnswersValue := by
  unfold Obligations.ReadAfterWriteAnswersValue
  intro s m a d hwf hlive h
  obtain ⟨-, hm⟩ := (state_wf_live hlive).mp hwf
  exact ⟨_, exec_writemem_of_live hlive a d, exec_readmem_answers rfl (memRead_memWrite_stored hm h d)⟩

/-! ### A write is seen at its aliases only -/

/-- The addresses `b` at which a write to `a` is not seen: another region, another index of one region, a place without
storage, or a program-ROM address that the bank register does not move. -/
def Apart (p : Params) (m : Ncore) (a b : Addr) : Prop :=
  regionOf a ≠ regionOf b ∨
    (regionOf a = .ram ∧ ramIndex a ≠ ramIndex b) ∨ (regionOf a = .ppu ∧ ppuIndex a ≠ ppuIndex b) ∨
    (regionOf a = .apu ∧ apuIndex a ≠ apuIndex b) ∨ (regionOf a = .sram ∧ sramIndex p a ≠ sramIndex p b) ∨
    regionOf a = .iox ∨ regionOf a = .exp ∨
    (regionOf a = .prg ∧ (m.cart = none ∨ 0xC000#16 ≤ b ∨ ∃ c, m.cart = some c ∧ c.variant ≠ .prgsw))

section
variable {p : Params} {m : Ncore} {a b : Addr} (h : Apart p m a b)
include h

theorem Apart.ramIndex_ne (ha : regionOf a = .ram) (hb : regionOf b = .ram) : ramIndex a ≠ ramIndex b := by
  simpa [Apart, ha, hb] using h

theorem Apart.ppuIndex_ne (ha : regionOf a = .ppu) (hb : regionOf b = .ppu) : ppuIndex a ≠ ppuIndex b := by
  simpa [Apart, ha, hb] using h

theorem Apart.apuIndex_ne (ha : regionOf a = .apu) (hb : regionOf b = .apu) : apuIndex a ≠ apuIndex b := by
  simpa [Apart, ha, hb] using h

theorem Apart.sramIndex_ne (ha : regionOf a = .sram) (hb : regionOf b = .sram) : sramIndex p a ≠ sramIndex p b := by
  simpa [Apart, ha, hb] using h

theorem Apart.unbanked {c : Cart} (hc : m.cart = some c) (ha : regionOf a = .prg) (hb : regionOf b = .prg) :
    0xC000#16 ≤ b ∨ c.variant ≠ .prgsw := by
  simpa [Apart, ha, hb, hc] using h

end

@[simp] theorem onWrite_hdr (c : Cart) (a : Addr) (d : Byte) : (onWrite c a d).hdr = c.hdr :=
  congrArg (·.1) (onWrite_fixedPart c a d)

@[simp] theorem onWrite_rom (c : Cart) (a : Addr) (d : Byte) : (onWrite c a d).rom = c.rom :=
  congrArg (·.2.1) (onWrite_fixedPart c a d)

@[simp] theorem onWrite_variant (c : Cart) (a : Addr) (d : Byte) : (onWrite c a d).variant = c.variant :=
  congrArg (·.2.2.2) (onWrite_fixedPart c a d)

/-- Only `PRGSW` below 0xC000 looks at a bank register (R180 to R182). -/
theorem translatePrg_onWrite {c : Cart} {b : Addr} (h : 0xC000#16 ≤ b ∨ c.variant ≠ .prgsw) (a : Addr) (d : Byte) :
    translatePrg (onWrite c a d) b = translatePrg c b := by
  by_cases hv : c.variant = .prgsw
  · have hb := h.resolve_right (not_not_intro hv)
    rw [translatePrg_of_prgsw_high hv hb, translatePrg_of_prgsw_high ((onWrite_variant c a d).trans hv) hb, onWrite_hdr]
  · rw [translatePrg_of_ne_prgsw hv, translatePrg_of_ne_prgsw (onWrite_variant c a d ▸ hv), onWrite_hdr]

theorem readPrg_onWrite (p : Params) {m : Ncore} {c : Cart} {b : Addr} (hc : m.cart = some c)
    (h : 0xC000#16 ≤ b ∨ c.variant ≠ .prgsw) (a : Addr) (d : Byte) :
    readPrg p (m.setCart (some (onWrite c a d))) b = readPrg p m b := by
  have hsize : romSize (onWrite c a d) = romSize c := by simp only [romSize, onWrite_hdr]
  rw [readPrg_of_cart p hc, readPrg_of_cart p (Ncore.setCart_cart ..), hsize, onWrite_rom, translatePrg_onWrite h]

theorem readSram_onWrite (p : Params) {m : Ncore} {c : Cart} (hc : m.cart = some c) (a b : Addr) (d : Byte) :
    readSram p (m.setCart (some (onWrite c a d))) b = readSram p m b := by
  simp only [readSram, hc, Ncore.setCart_cart, onWrite_hdr, onWrite_prgRam]

/-- Program ROM is read past a store into save RAM. -/
theorem readPrg_setPrgRam (p : Params) {m : Ncore} {c : Cart} (hc : m.cart = some c) (x : Option Memory) (b : Addr) :
    readPrg p (m.setCart (some (c.setPrgRam x))) b = readPrg p m b := by
  rw [readPrg_of_cart p hc, readPrg_of_cart p (Ncore.setCart_cart ..)]
  rfl

theorem memRead_memWrite_apart {p : Params} {m : Ncore} {a b : Addr} (hm : Ncore.wf p m = true) (h : Apart p m a b)
    (d : Byte) : memRead p (memWrite p m a d) b = memRead p m b := by
  obtain ⟨hlow, -, hppu, -, hapu, -, -, -, -, hcart⟩ := ncore_wf_iff.mp hm
  rcases memWrite_cases p m a d with e | ⟨ha, e⟩ | ⟨ha, e⟩ | ⟨ha, e⟩ | ⟨c, hc, ha, e⟩ | ⟨c, ram, hc, ha, hs, hr, e⟩ <;>
    rw [e]
  · exact memRead_eq_of_reads (fun hb => read_write_ne hlow (h.ramIndex_ne ha hb) d) (fun _ => rfl) (fun _ => rfl)
      (fun _ => rfl) (fun _ => rfl)
  · exact memRead_eq_of_reads (fun _ => rfl) (fun hb => read_write_ne hppu (h.ppuIndex_ne ha hb) d) (fun _ => rfl)
      (fun _ => rfl) (fun _ => rfl)
  · exact memRead_eq_of_reads (fun _ => rfl) (fun _ => rfl) (fun hb => read_write_ne hapu (h.apuIndex_ne ha hb) d)
      (fun _ => rfl) (fun _ => rfl)
  · exact memRead_eq_of_reads (fun _ => rfl) (fun _ => rfl) (fun _ => rfl)
      (fun hb => readPrg_onWrite p hc (h.unbanked hc ha hb) a d) (fun _ => readSram_onWrite p hc a b d)
  · obtain ⟨-, -, -, -, -, -, hram⟩ := cart_wf_iff.mp (hcart c hc)
    refine memRead_eq_of_reads (fun _ => rfl) (fun _ => rfl) (fun _ => rfl) (fun _ => readPrg_setPrgRam p hc _ b)
      (fun hb => ?_)
    rw [readSram_setPrgRam p m hs, readSram_of_ram p hc hs hr]
    exact read_write_ne (hram ram hr).1 (h.sramIndex_ne ha hb) d

/-- Settles O40: each of the five effects of a write is invisible at an address apart from it. -/
theorem writeChangesOnlyAliases : Obligations.WriteChangesOnlyAliases := by
  unfold Obligations.WriteChangesOnlyAliases
  intro s m a b d hwf hlive h
  obtain ⟨-, hm⟩ := (state_wf_live hlive).mp hwf
  exact ⟨_, exec_writemem_of_live hlive a d, exec_readmem_answers rfl (memRead_memWrite_apart hm h d)⟩

end Sys2Proof.Machine
end

section
/-! What the programs of the three collaborators, and the steps the scheduler makes of them, can and cannot change
(spec/43_facade_scheduler.md R251 to R254; spec/60_exceptions.md R292 to R298). -/

namespace Sys2Proof.Machine

/-- Settles O46: each equation is a clause of `runBus`, `runPpu` or `runApu`. -/
theorem runPerformsTransactionsAtOnce : Obligations.RunPerformsTransactionsAtOnce := by
  unfold Obligations.RunPerformsTransactionsAtOnce
  exact fun p R n m => ⟨fun r => rfl, fun a k => rfl, fun a d k => rfl, fun r => rfl, fun i k => rfl, fun i d k => rfl,
    fun v k => rfl, fun v d k => rfl, fun r => rfl, fun i k => rfl, fun i d k => rfl⟩

/-- Two machines look alike through `obs`: a relation for `runBus_rel`, `runPpu_rel` and `runApu_rel`. -/
def Keeps {α : Type} (obs : Ncore → α) (m m' : Ncore) : Prop := obs m' = obs m

theorem Keeps.refl {α : Type} (obs : Ncore → α) (m : Ncore) : Keeps obs m m := rfl

theorem Keeps.trans {α : Type} {obs : Ncore → α} (m m' m'' : Ncore) (h : Keeps obs m m') (h' : Keeps obs m' m'') :
    Keeps obs m m'' := Eq.trans h' h

/-- What a `LOAD` fixed in the record, if there is one. -/
def fixedParts (m : Ncore) : Option (Header × List Byte × List Byte × Variant) := m.cart.map Cart.fixedPart

/-! ### CPU programs -/

section
variable (p : Params) {R : Type} {n : Nat} (prog : BusProg R n) (m : Ncore)

theorem runBus_keeps {α : Type} {obs : Ncore → α} (hwrite : ∀ m a d, obs (memWrite p m a d) = obs m) :
    obs (runBus p prog m).2 = obs m :=
  runBus_rel (Keeps obs) (Keeps.refl obs) Keeps.trans hwrite prog m

theorem runBus_sameOutside : sameOutside m (runBus p prog m).2 :=
  runBus_rel sameOutside sameOutside_refl (fun _ _ _ => sameOutside_trans) (memWrite_sameOutside p) prog m

theorem runBus_fixedParts : fixedParts (runBus p prog m).2 = fixedParts m :=
  runBus_keeps p prog m (memWrite_fixedPart p)

end

theorem memWrite_chrRam (p : Params) (m : Ncore) (a : Addr) (d : Byte) :
    (memWrite p m a d).cart.map Cart.chrRam = m.cart.map Cart.chrRam := by
  rcases memWrite_cases p m a d with h | ⟨-, h⟩ | ⟨-, h⟩ | ⟨-, h⟩ | ⟨c, hc, -, h⟩ | ⟨c, r, hc, -, -, -, h⟩ <;> rw [h]
  · rfl
  · rfl
  · rfl
  · simp [hc]
  · simp [hc]

/-- Settles O49: a CPU program changes the machine by bus writes only. -/
theorem cpuProgramFrame : Obligations.CpuProgramFrame := by
  unfold Obligations.CpuProgramFrame
  intro p R n prog m
  obtain ⟨h1, h2, h3, h4, h5, h6, h7, h8⟩ := runBus_sameOutside p prog m
  exact ⟨h1, h2, h3, h4, h5, h6, h7, h8, runBus_fixedParts p prog m,
    runBus_keeps p prog m (obs := fun m => m.cart.map Cart.chrRam) (memWrite_chrRam p)⟩

/-! ### Dispatch -/

/-- The handler address of each interrupt, its low byte at the lower address (R74, R291). -/
theorem readVector_vectorOf (p : Params) (m : Ncore) (e : Interrupt) : readVector p m (vectorOf e) =
    if e = .nmi then memRead p m 0xFFFB#16 ++ memRead p m 0xFFFA#16
    else memRead p m 0xFFFF#16 ++ memRead p m 0xFFFE#16 := by
  cases e <;> rfl

/-- `CpuEnter` ends with `pc` at the vector (R256). -/
theorem dispatch_pc (p : Params) {n : Nat} (k : Collaborators n) (e : Interrupt) (m : Ncore) :
    (dispatch p k e m).cpu.pc = readVector p m (vectorOf e) :=
  runBus_always p _ (k.cpu.enter_pc m.cpu e (readVector p m (vectorOf e))) m

/-- Settles O47: a dispatch is the run of `CpuEnter`'s program, whose obligation gives the `pc` and whose frame is that of
every CPU program. -/
theorem dispatchEntersAtVector : Obligations.DispatchEntersAtVector := by
  unfold Obligations.DispatchEntersAtVector
  intro p n k e m
  have hframe := runBus_sameOutside p (k.cpu.enter m.cpu e (readVector p m (vectorOf e))) m
  obtain ⟨hcpuSteps, hppuSteps, hapuSteps, hnmi, hirq, -, hppu, hapu⟩ := hframe
  refine ⟨fun v c m' hv hrun => ?_, (dispatch_pc p k e m).trans (readVector_vectorOf p m e), hnmi, hirq, hcpuSteps,
    hppuSteps, hapuSteps, hppu, hapu, runBus_fixedParts p _ m⟩
  rw [← readVector_vectorOf] at hv
  subst hv
  simp only [dispatch, hrun]

/-! ### The CPU slot -/

section
variable {p : Params} {rel : Ncore → Ncore → Prop} (hrefl : ∀ m, rel m m)
  (htrans : ∀ m m' m'', rel m m' → rel m' m'' → rel m m'') (hwrite : ∀ m a d, rel m (memWrite p m a d))
  (hcpu : ∀ m c, rel m (m.setCpu c))
include hrefl htrans hwrite hcpu

theorem dispatch_rel {n : Nat} (k : Collaborators n) (e : Interrupt) (m : Ncore) : rel m (dispatch p k e m) :=
  htrans _ _ _ (runBus_rel rel hrefl htrans hwrite (k.cpu.enter m.cpu e (readVector p m (vectorOf e))) m) (hcpu _ _)

theorem cpuStepOnce_rel {n : Nat} (k : Collaborators n) (m : Ncore) : rel m (cpuStepOnce p k m) := by
  have hstep : rel m ((runBus p (k.cpu.step m.cpu) m).2.setCpu (runBus p (k.cpu.step m.cpu) m).1.1) :=
    htrans _ _ _ (runBus_rel rel hrefl htrans hwrite (k.cpu.step m.cpu) m) (hcpu _ _)
  simp only [cpuStepOnce]
  split_ifs with hbrk
  · exact htrans _ _ _ hstep (dispatch_rel hrefl htrans hwrite hcpu k .brk _)
  · exact hstep

/-- What one CPU turn can do, whichever event it takes: bus writes, a new CPU state and the clearing of a pending `NMI`. -/
theorem cpuTurn_rel (hnmi : ∀ m, rel m (takeNmi m)) {n : Nat} (k : Collaborators n) (m : Ncore) :
    rel m (cpuTurn p k m) := by
  unfold cpuTurn
  split_ifs with hpending hirq
  · exact htrans _ _ _ (hnmi m) (dispatch_rel hrefl htrans hwrite hcpu k .nmi _)
  · exact dispatch_rel hrefl htrans hwrite hcpu k .irq m
  · exact cpuStepOnce_rel hrefl htrans hwrite hcpu k m

end

/-- The three step counters. -/
def steps (m : Ncore) : Nat × Nat × Nat := (m.cpuSteps, m.ppuSteps, m.apuSteps)

theorem memWrite_steps (p : Params) (m : Ncore) (a : Addr) (d : Byte) : steps (memWrite p m a d) = steps m := by
  obtain ⟨h1, h2, h3, -⟩ := memWrite_sameOutside p m a d
  simp only [steps, h1, h2, h3]

theorem memWrite_nmiPending (p : Params) (m : Ncore) (a : Addr) (d : Byte) :
    (memWrite p m a d).nmiPending = m.nmiPending := by
  obtain ⟨-, -, -, h, -⟩ := memWrite_sameOutside p m a d
  exact h

theorem memWrite_irqLine (p : Params) (m : Ncore) (a : Addr) (d : Byte) : (memWrite p m a d).irqLine = m.irqLine := by
  obtain ⟨-, -, -, -, h, -⟩ := memWrite_sameOutside p m a d
  exact h

section
variable (p : Params) {n : Nat} (k : Collaborators n) (m : Ncore)

theorem cpuTurn_keeps {α : Type} {obs : Ncore → α} (hwrite : ∀ m a d, obs (memWrite p m a d) = obs m)
    (hcpu : ∀ m c, obs (m.setCpu c) = obs m) (hnmi : ∀ m, obs (takeNmi m) = obs m) : obs (cpuTurn p k m) = obs m :=
  cpuTurn_rel (rel := Keeps obs) (Keeps.refl obs) Keeps.trans hwrite hcpu hnmi k m

theorem cpuTurn_steps : steps (cpuTurn p k m) = steps m :=
  cpuTurn_keeps p k m (memWrite_steps p) (fun _ _ => rfl) (fun _ => rfl)

theorem cpuTurn_irqLine : (cpuTurn p k m).irqLine = m.irqLine :=
  cpuTurn_keeps p k m (obs := Ncore.irqLine) (memWrite_irqLine p) (fun _ _ => rfl) (fun _ => rfl)

theorem dispatch_nmiPending (e : Interrupt) : (dispatch p k e m).nmiPending = m.nmiPending :=
  dispatch_rel (rel := Keeps Ncore.nmiPending) (Keeps.refl _) Keeps.trans (memWrite_nmiPending p) (fun _ _ => rfl) k e m

theorem cpuStepOnce_nmiPending : (cpuStepOnce p k m).nmiPending = m.nmiPending :=
  cpuStepOnce_rel (rel := Keeps Ncore.nmiPending) (Keeps.refl _) Keeps.trans (memWrite_nmiPending p) (fun _ _ => rfl) k m

/-- A pending `NMI` is taken in the turn that finds it, and no turn makes one pending (R288). -/
theorem cpuTurn_nmiPending : (cpuTurn p k m).nmiPending = false := by
  unfold cpuTurn
  split_ifs with hpending hirq
  · exact dispatch_nmiPending p k (takeNmi m) .nmi
  · exact (dispatch_nmiPending p k m .irq).trans (Bool.eq_false_iff.mpr hpending)
  · exact (cpuStepOnce_nmiPending p k m).trans (Bool.eq_false_iff.mpr hpending)

theorem cpuSlot_eq : cpuSlot p k m = (cpuTurn p k m).setCpuSteps ((m.cpuSteps + 1) % 2 ^ p.counterBits) := by
  have hsteps : (cpuTurn p k m).cpuSteps = m.cpuSteps := congrArg Prod.fst (cpuTurn_steps p k m)
  rw [cpuSlot, countCpu, hsteps, countUp]

theorem cpuTurn_of_nmi (h : m.nmiPending = true) : cpuTurn p k m = dispatch p k .nmi (m.setNmiPending false) :=
  if_pos h

theorem cpuTurn_of_irq (h : m.nmiPending = false) (hline : m.irqLine = true) (hen : k.cpu.irqEnabled m.cpu = true) :
    cpuTurn p k m = dispatch p k .irq m := by
  rw [cpuTurn, if_neg (Bool.eq_false_iff.mp h), hline, hen]
  rfl

theorem cpuTurn_of_step (h : m.nmiPending = false) (hirq : m.irqLine = false ∨ k.cpu.irqEnabled m.cpu = false) :
    cpuTurn p k m = cpuStepOnce p k m := by
  have hno : (m.irqLine && k.cpu.irqEnabled m.cpu) = false := Bool.and_eq_false_iff.mpr hirq
  rw [cpuTurn, if_neg (Bool.eq_false_iff.mp h), if_neg (Bool.eq_false_iff.mp hno)]

end

/-- Settles O48: the four events of a turn, each equal to its branch of the slot; the `pc` after a dispatch is the vector. -/
theorem cpuSlotTakesOneEvent : Obligations.CpuSlotTakesOneEvent := by
  unfold Obligations.CpuSlotTakesOneEvent
  intro p n k m
  rw [cpuSlot_eq]
  refine ⟨rfl, cpuTurn_irqLine p k m, fun hnmi => ⟨?_, cpuTurn_nmiPending p k m, ?_⟩, fun _ => cpuTurn_nmiPending p k m,
    fun hnmi hline hen => ⟨?_, ?_⟩, fun hnmi hirq c brk m' hrun => ⟨fun hbrk => ?_, fun hbrk => ⟨?_, ?_⟩⟩⟩
  · rw [cpuTurn_of_nmi p k m hnmi]
  · rw [cpuTurn_of_nmi p k m hnmi]
    exact (dispatch_pc p k .nmi _).trans (readVector_vectorOf p m .nmi)
  · rw [cpuTurn_of_irq p k m hnmi hline hen]
  · rw [cpuTurn_of_irq p k m hnmi hline hen]
    exact (dispatch_pc p k .irq m).trans (readVector_vectorOf p m .irq)
  · rw [cpuTurn_of_step p k m hnmi hirq, cpuStepOnce, hrun, hbrk]
    rfl
  · rw [cpuTurn_of_step p k m hnmi hirq, cpuStepOnce, hrun, hbrk]
    rfl
  · rw [cpuTurn_of_step p k m hnmi hirq, cpuStepOnce, hrun, hbrk]
    exact (dispatch_pc p k .brk _).trans (readVector_vectorOf p m' .brk)

/-! ### The video step -/

section
variable (p : Params) {R : Type} {n : Nat} (prog : PpuProg R n) (m : Ncore)

theorem runPpu_keeps {α : Type} {obs : Ncore → α} (hreg : ∀ m (i : Fin 8) d, obs (storePpu p m i.val d) = obs m)
    (hchr : ∀ m v d, obs (chrWrite p m v d) = obs m) : obs (runPpu p prog m).2 = obs m :=
  runPpu_rel (Keeps obs) (Keeps.refl obs) Keeps.trans hreg hchr prog m

theorem runPpu_sameOutside : sameOutside m (runPpu p prog m).2 :=
  runPpu_rel sameOutside sameOutside_refl (fun _ _ _ => sameOutside_trans) (fun _ _ _ => sameOutside_refl _)
    (chrWrite_sameOutside p) prog m

theorem chrWrite_lowmem (v : PatAddr) (d : Byte) : (chrWrite p m v d).lowmem = m.lowmem := by
  rcases chrWrite_cases p m v d with h | ⟨c, r, -, -, -, h⟩ <;> rw [h]
  rfl

theorem chrWrite_apuregs (v : PatAddr) (d : Byte) : (chrWrite p m v d).apuregs = m.apuregs := by
  rcases chrWrite_cases p m v d with h | ⟨c, r, -, -, -, h⟩ <;> rw [h]
  rfl

/-- A video-port write leaves all of the record but `chr_ram`. -/
theorem chrWrite_cart_map {α : Type} {f : Cart → α} (hf : ∀ c x, f (c.setChrRam x) = f c) (v : PatAddr) (d : Byte) :
    (chrWrite p m v d).cart.map f = m.cart.map f := by
  rcases chrWrite_cases p m v d with h | ⟨c, r, hc, -, -, h⟩ <;> rw [h]
  simp only [Ncore.setCart_cart, hc, Option.map_some, hf]

/-- A video-chip program leaves all of the record but `chr_ram`. -/
theorem runPpu_cart_map {α : Type} {f : Cart → α} (hf : ∀ c x, f (c.setChrRam x) = f c) :
    (runPpu p prog m).2.cart.map f = m.cart.map f :=
  runPpu_keeps p prog m (obs := fun m => m.cart.map f) (fun _ _ _ => rfl) (fun m => chrWrite_cart_map p m hf)

end

/-- A request sets the latch, and the latch is never cleared by one (R253, R288). -/
theorem latchNmi_eq (req : Bool) (m : Ncore) : latchNmi req m = m.setNmiPending (m.nmiPending || req) := by
  cases req
  · simp only [latchNmi, Bool.false_eq_true, if_false, Bool.or_false]
    rfl
  · simp only [latchNmi, if_true, Bool.or_true]

/-- A video step, update by update, around the run of its program. -/
theorem ppuStepOnce_eq (p : Params) {n : Nat} (k : Collaborators n) (m : Ncore) : ppuStepOnce p k m =
    (((runPpu p (k.ppu.step m.ppu) m).2.setPpu (runPpu p (k.ppu.step m.ppu) m).1.1).setNmiPending
      (m.nmiPending || (runPpu p (k.ppu.step m.ppu) m).1.2)).setPpuSteps ((m.ppuSteps + 1) % 2 ^ p.counterBits) := by
  obtain ⟨-, hsteps, -, hnmi, -⟩ := runPpu_sameOutside p (k.ppu.step m.ppu) m
  simp only [ppuStepOnce, latchNmi_eq, countPpu, countUp, Ncore.setPpu_nmiPending, Ncore.setNmiPending_ppuSteps,
    Ncore.setPpu_ppuSteps, hsteps, hnmi]

/-- Settles O50: a video-chip program stores in `ppuregs` and `chr_ram` only, and the step puts in the chip's state, the
latch and the count. -/
theorem ppuStepTouchesItsOwnOnly : Obligations.PpuStepTouchesItsOwnOnly := by
  unfold Obligations.PpuStepTouchesItsOwnOnly
  intro p n k m
  obtain ⟨hcpuSteps, -, hapuSteps, -, hirq, hcpu, -, hapu⟩ := runPpu_sameOutside p (k.ppu.step m.ppu) m
  rw [ppuStepOnce_eq]
  exact ⟨rfl, rfl, rfl, rfl, rfl,
    runPpu_keeps p _ m (obs := Ncore.lowmem) (fun _ _ _ => rfl) (chrWrite_lowmem p),
    runPpu_keeps p _ m (obs := Ncore.apuregs) (fun _ _ _ => rfl) (chrWrite_apuregs p),
    hcpuSteps, hapuSteps, hirq, hcpu, hapu, runPpu_cart_map p _ m fun _ _ => rfl, runPpu_cart_map p _ m fun _ _ => rfl,
    runPpu_cart_map p _ m fun _ _ => rfl⟩

/-! ### The audio step -/

/-- An audio-chip program changes `apuregs` alone. -/
theorem runApu_eq (p : Params) {R : Type} {n : Nat} (prog : ApuProg R n) (m : Ncore) :
    (runApu p prog m).2 = m.setApuregs (runApu p prog m).2.apuregs :=
  runApu_rel (fun m m' => m' = m.setApuregs m'.apuregs) (fun _ => rfl)
    (fun _ _ m'' h h' => h'.trans (congrArg (·.setApuregs m''.apuregs) h)) (fun _ _ _ => rfl) prog m

/-- Settles O51: the step puts the chip's state, the line and the count around its program's run. -/
theorem apuStepTouchesItsOwnOnly : Obligations.ApuStepTouchesItsOwnOnly := by
  unfold Obligations.ApuStepTouchesItsOwnOnly
  intro p n k m
  rw [← runApu_eq, apuStepOnce, countApu, driveIrq]
  have hsteps : (runApu p (k.apu.step m.apu) m).2.apuSteps = m.apuSteps := by
    rw [runApu_eq, Ncore.setApuregs_apuSteps]
  simp only [countUp, Ncore.setIrqLine_apuSteps, Ncore.setApu_apuSteps, hsteps]

end Sys2Proof.Machine
end

section
/-! The tick (spec/43_facade_scheduler.md R250, R255, R260): its three groups of steps advance the counters by the counts of
the cartridge's format. -/

namespace Sys2Proof.Machine

theorem exec_tick_of_live {s : State} {m : Ncore} (hlive : s.life = .live m) :
    exec .tick s = .next ((s.setLife (.live (tick s.params s.chips m))).setResult .nothing) :=
  onLive_live hlive _

/-- The format of a tick, by the two cases of the record (R260, D5). -/
theorem tickCounts_eq {p : Params} {m : Ncore} {t : TickCounts} (hnone : m.cart = none → t = p.counts p.defaultFormat)
    (hsome : ∀ c, m.cart = some c → t = p.counts c.hdr.format) : t = p.counts (tickFormat p m) := by
  unfold tickFormat
  cases hc : m.cart with
  | none => exact hnone hc
  | some c => exact hsome c hc

/-- Settles O29: a tick is its three groups, for the counts of its format. -/
theorem tickRunsThreeGroups : Obligations.TickRunsThreeGroups := by
  unfold Obligations.TickRunsThreeGroups
  intro s m t hlive hnone hsome
  rw [exec_tick_of_live hlive, tick, ← tickCounts_eq hnone hsome, tickGroups]

/-! ### What every tick keeps -/

section
variable (p : Params) {n : Nat} (k : Collaborators n) (m : Ncore)

theorem cpuSlot_fixedParts : fixedParts (cpuSlot p k m) = fixedParts m :=
  cpuTurn_keeps p k m (obs := fixedParts) (memWrite_fixedPart p) (fun _ _ => rfl) (fun _ => rfl)

theorem ppuStepOnce_fixedParts : fixedParts (ppuStepOnce p k m) = fixedParts m := by
  rw [ppuStepOnce_eq]
  exact runPpu_cart_map p _ m fun _ _ => rfl

theorem apuStepOnce_fixedParts : fixedParts (apuStepOnce p k m) = fixedParts m := by
  rw [apuStepTouchesItsOwnOnly]
  rfl

/-- An observation that a step keeps, any number of the steps keeps. -/
theorem iterate_keeps {α : Type} {obs : Ncore → α} {f : Ncore → Ncore} (hf : ∀ m, obs (f m) = obs m) (j : Nat) :
    obs (f^[j] m) = obs m :=
  Function.Iterate.rec (fun m' => obs m' = obs m) rfl (fun m' h => (hf m').trans h) j

theorem tick_fixedParts : fixedParts (tick p k m) = fixedParts m := by
  rw [tick, tickGroups, iterate_keeps _ (apuStepOnce_fixedParts p k), iterate_keeps _ (ppuStepOnce_fixedParts p k),
    iterate_keeps _ (cpuSlot_fixedParts p k)]

/-- The format of a tick is part of what a `LOAD` fixed. -/
theorem tickFormat_eq : tickFormat p m = (fixedParts m).elim p.defaultFormat (·.1.format) := by
  unfold tickFormat fixedParts
  cases m.cart <;> rfl

theorem tickFormat_tick : tickFormat p (tick p k m) = tickFormat p m := by
  rw [tickFormat_eq, tick_fixedParts, ← tickFormat_eq]

end

/-! ### How far the counters advance -/

/-- From `m` to `m'` the three counters have advanced by `x`, `y` and `z`, modulo `2^P_COUNTER_BITS` (R33). -/
def Advances (p : Params) (x y z : Nat) (m m' : Ncore) : Prop :=
  m'.cpuSteps ≡ m.cpuSteps + x [MOD 2 ^ p.counterBits] ∧ m'.ppuSteps ≡ m.ppuSteps + y [MOD 2 ^ p.counterBits] ∧
    m'.apuSteps ≡ m.apuSteps + z [MOD 2 ^ p.counterBits]

section
variable {p : Params} {x y z x' y' z' : Nat} {m m' m'' : Ncore}

theorem Advances.refl (p : Params) (m : Ncore) : Advances p 0 0 0 m m := ⟨rfl, rfl, rfl⟩

theorem Advances.trans (h : Advances p x y z m m') (h' : Advances p x' y' z' m' m'') :
    Advances p (x + x') (y + y') (z + z') m m'' := by
  obtain ⟨hx, hy, hz⟩ := h
  obtain ⟨hx', hy', hz'⟩ := h'
  simp only [Advances, ← Nat.add_assoc]
  exact ⟨hx'.trans (hx.add_right x'), hy'.trans (hy.add_right y'), hz'.trans (hz.add_right z')⟩

theorem Advances.iterate {f : Ncore → Ncore} (hf : ∀ m, Advances p x y z m (f m)) (j : Nat) (m : Ncore) :
    Advances p (j * x) (j * y) (j * z) m (f^[j] m) := by
  induction j generalizing m with
  | zero =>
    simp only [Nat.zero_mul]
    exact Advances.refl p m
  | succ j ih =>
    simp only [Nat.succ_mul, Nat.add_comm (j * _), Function.iterate_succ_apply]
    exact (hf m).trans (ih (f m))

end

section
variable (p : Params) {n : Nat} (k : Collaborators n) (m : Ncore)

theorem cpuSlot_advances : Advances p 1 0 0 m (cpuSlot p k m) := by
  obtain ⟨hppu, hapu⟩ := Prod.mk.inj (Prod.mk.inj (cpuTurn_steps p k m)).2
  rw [cpuSlot_eq]
  exact ⟨Nat.mod_modEq _ _, congrArg (· % _) hppu, congrArg (· % _) hapu⟩

theorem ppuStepOnce_advances : Advances p 0 1 0 m (ppuStepOnce p k m) := by
  obtain ⟨hcpu, -, hapu, -⟩ := runPpu_sameOutside p (k.ppu.step m.ppu) m
  rw [ppuStepOnce_eq]
  exact ⟨congrArg (· % _) hcpu, Nat.mod_modEq _ _, congrArg (· % _) hapu⟩

theorem apuStepOnce_advances : Advances p 0 0 1 m (apuStepOnce p k m) := by
  rw [apuStepTouchesItsOwnOnly]
  exact ⟨rfl, rfl, Nat.mod_modEq _ _⟩

theorem tick_advances {t : TickCounts} (ht : t = p.counts (tickFormat p m)) :
    Advances p t.cpu t.ppu t.apu m (tick p k m) := by
  have h := ((Advances.iterate (cpuSlot_advances p k) t.cpu m).trans
    (Advances.iterate (ppuStepOnce_advances p k) t.ppu _)).trans (Advances.iterate (apuStepOnce_advances p k) t.apu _)
  simp only [Nat.mul_zero, Nat.mul_one, Nat.add_zero, Nat.zero_add] at h
  rwa [tick, ← ht]

end

/-- `N` ticks complete, and each is a tick of the same format. -/
theorem execAll_ticks (N : Nat) {s : State} {m : Ncore} {t : TickCounts} (hlive : s.life = .live m)
    (ht : t = s.params.counts (tickFormat s.params m)) :
    ∃ (u : State) (m' : Ncore), execAll (List.replicate N .tick) s = .next u ∧ u.life = .live m' ∧
      Advances s.params (N * t.cpu) (N * t.ppu) (N * t.apu) m m' := by
  induction N generalizing s m with
  | zero => exact ⟨s, m, rfl, hlive, by simpa only [Nat.zero_mul] using Advances.refl s.params m⟩
  | succ N ih =>
    obtain ⟨u, m', hrun, hu, hadv⟩ := ih (s := (s.setLife (.live (tick s.params s.chips m))).setResult .nothing)
      (m := tick s.params s.chips m) rfl (ht.trans (congrArg _ (tickFormat_tick s.params s.chips m).symm))
    refine ⟨u, m', ?_, hu, ?_⟩
    · simp only [List.replicate_succ, execAll, exec_tick_of_live hlive, hrun]
    · simp only [Nat.succ_mul, Nat.add_comm (N * _)]
      exact (tick_advances s.params s.chips m ht).trans hadv

/-- Settles O52: `N` ticks, each of which advances the counters by the counts of the same format. -/
theorem ticksAdvanceCountersByRatio : Obligations.TicksAdvanceCountersByRatio := by
  unfold Obligations.TicksAdvanceCountersByRatio
  exact fun s m t N hlive hnone hsome => execAll_ticks N hlive (tickCounts_eq hnone hsome)

end Sys2Proof.Machine
end

section
/-! The invariant of the state (spec/10_state.md): every step keeps it, and the state after reset meets it. -/

namespace Sys2Proof.Machine

section
variable {p : Params} {n : Nat} (k : Collaborators n)

theorem countUp_lt (p : Params) (c : Nat) : countUp p c < 2 ^ p.counterBits := Nat.mod_lt _ (Nat.two_pow_pos _)

theorem countCpu_wf {m : Ncore} (h : Ncore.wf p m = true) : Ncore.wf p (countCpu p m) = true := by
  rw [ncore_wf_iff] at h ⊢
  obtain ⟨h1, h2, h3, h4, h5, h6, -, h8, h9, h10⟩ := h
  exact ⟨h1, h2, h3, h4, h5, h6, countUp_lt p _, h8, h9, h10⟩

theorem countPpu_wf {m : Ncore} (h : Ncore.wf p m = true) : Ncore.wf p (countPpu p m) = true := by
  rw [ncore_wf_iff] at h ⊢
  obtain ⟨h1, h2, h3, h4, h5, h6, h7, -, h9, h10⟩ := h
  exact ⟨h1, h2, h3, h4, h5, h6, h7, countUp_lt p _, h9, h10⟩

theorem countApu_wf {m : Ncore} (h : Ncore.wf p m = true) : Ncore.wf p (countApu p m) = true := by
  rw [ncore_wf_iff] at h ⊢
  obtain ⟨h1, h2, h3, h4, h5, h6, h7, h8, -, h10⟩ := h
  exact ⟨h1, h2, h3, h4, h5, h6, h7, h8, countUp_lt p _, h10⟩

/-- The invariant carries over from the first machine to the second: a relation for the runs of programs. -/
def KeepsWf (p : Params) (m m' : Ncore) : Prop := Ncore.wf p m = true → Ncore.wf p m' = true

theorem KeepsWf.trans (m m' m'' : Ncore) (h : KeepsWf p m m') (h' : KeepsWf p m' m'') : KeepsWf p m m'' := h' ∘ h

theorem cpuSlot_wf (hp : p.wf = true) {m : Ncore} (h : Ncore.wf p m = true) : Ncore.wf p (cpuSlot p k m) = true := by
  have hturn : KeepsWf p m (cpuTurn p k m) :=
    cpuTurn_rel (fun _ => id) KeepsWf.trans (fun _ a d hm => memWrite_wf hp hm a d) (fun _ _ => id) (fun _ => id) k m
  exact countCpu_wf (hturn h)

theorem ppuStepOnce_wf (hp : p.wf = true) {m : Ncore} (h : Ncore.wf p m = true) :
    Ncore.wf p (ppuStepOnce p k m) = true := by
  have hrun : KeepsWf p m (runPpu p (k.ppu.step m.ppu) m).2 :=
    runPpu_rel (KeepsWf p) (fun _ => id) KeepsWf.trans (fun _ i d hm => storePpu_wf hm i.isLt d)
      (fun _ v d hm => chrWrite_wf hp hm v d) (k.ppu.step m.ppu) m
  simp only [ppuStepOnce, latchNmi_eq]
  exact countPpu_wf (hrun h)

theorem apuStepOnce_wf {m : Ncore} (h : Ncore.wf p m = true) : Ncore.wf p (apuStepOnce p k m) = true := by
  have hrun : KeepsWf p m (runApu p (k.apu.step m.apu) m).2 :=
    runApu_rel (KeepsWf p) (fun _ => id) KeepsWf.trans (fun _ i d hm => storeApu_wf hm i.isLt d) (k.apu.step m.apu) m
  exact countApu_wf (hrun h)

theorem iterate_wf {f : Ncore → Ncore} (hf : ∀ m, KeepsWf p m (f m)) (j : Nat) {m : Ncore} (h : Ncore.wf p m = true) :
    Ncore.wf p (f^[j] m) = true :=
  Function.Iterate.rec (fun m => Ncore.wf p m = true) h hf j

theorem tick_wf (hp : p.wf = true) {m : Ncore} (h : Ncore.wf p m = true) : Ncore.wf p (tick p k m) = true :=
  iterate_wf (fun _ => apuStepOnce_wf k) _ (iterate_wf (fun _ => ppuStepOnce_wf k hp) _
    (iterate_wf (fun _ => cpuSlot_wf k hp) _ h))

/-- The reset procedure leaves empty arrays and zero counters; of the invariant only the record's part is carried over. -/
theorem resetProcedure_wf {m : Ncore} (h : ∀ c, m.cart = some c → Cart.wf p c = true) :
    Ncore.wf p (resetProcedure p k m) = true := by
  have hpos := Nat.two_pow_pos p.counterBits
  refine ncore_wf_iff.mpr ⟨rfl, rfl, rfl, rfl, rfl, rfl, hpos, hpos, hpos, fun c hc => ?_⟩
  obtain ⟨c₀, hc₀, rfl⟩ := Option.map_eq_some_iff.mp (resetProcedure_cart p k m ▸ hc)
  exact h c₀ hc₀

end

/-- On a live machine the invariant carries over where the operation's own part keeps it. -/
theorem commit_wf {s : State} {m m' : Ncore} (hs : s.wf = true) (hlive : s.life = .live m)
    (h : s.params.wf = true → KeepsWf s.params m m') (r : Result) : ((s.setLife (.live m')).setResult r).wf = true := by
  obtain ⟨hp, hm⟩ := (state_wf_live hlive).mp hs
  exact (state_wf_live rfl).mpr ⟨hp, h hp hm⟩

theorem exec_wf {i : Instr} {s t : State} (hs : s.wf = true) (h : exec i s = .next t) : t.wf = true := by
  have hp : s.params.wf = true := (Bool.and_eq_true_iff.mp hs).1
  rcases exec_cases h with ⟨m, r, -, -, -, -, rfl⟩ | ⟨m, a, d, hlive, -, rfl⟩ | ⟨m, v, d, hlive, -, rfl⟩ |
    ⟨m, hlive, -, rfl⟩ | ⟨m, img, ok, c, hlive, -, hparse, rfl⟩ | ⟨m, hlive, -, rfl⟩ | ⟨-, -, rfl⟩ | ⟨m, -, -, rfl⟩
  · exact hs
  · exact commit_wf hs hlive (fun hp hm => memWrite_wf hp hm a d) _
  · exact commit_wf hs hlive (fun hp hm => chrWrite_wf hp hm v d) _
  · exact commit_wf hs hlive (fun _ _ => resetProcedure_wf s.chips fun c hc => cart_wf_of_live hs hlive hc) _
  · exact commit_wf hs hlive (fun _ hm => setCart_wf hm (parseImage_wf hparse)) _
  · exact commit_wf hs hlive (fun hp hm => tick_wf s.chips hp hm) _
  · exact (state_wf_live rfl).mpr ⟨hp, resetProcedure_wf s.chips nofun⟩
  · exact Bool.and_eq_true_iff.mpr ⟨hp, rfl⟩

/-- Settles O58: a step runs nothing or one operation, and each of the eight things an operation can do keeps the
invariant. -/
theorem stepKeepsInvariant : Obligations.StepKeepsInvariant := by
  unfold Obligations.StepKeepsInvariant
  intro s t hs h
  rcases step_cases h with ⟨-, rfl⟩ | ⟨q, rest, i, -, -, -, hexec⟩
  · exact hs
  · exact exec_wf (s := s.setRequests rest) hs hexec

/-- Settles O59: empty arrays, zero counters, no record, and `CFG0`. -/
theorem resetMeetsInvariant : Obligations.ResetMeetsInvariant := by
  unfold Obligations.ResetMeetsInvariant
  refine (state_wf_live reset_life).mpr ⟨cfg0_wf, ncore_wf_iff.mpr ?_⟩
  have hpos := Nat.two_pow_pos State.reset.params.counterBits
  exact ⟨rfl, rfl, rfl, rfl, rfl, rfl, hpos, hpos, hpos, nofun⟩

end Sys2Proof.Machine
end

section
/-! `CREATE`, `RESET`, `INSPECT`, `DESTROY` and the life of a machine (spec/43_facade_scheduler.md R240 to R247;
spec/10_state.md R20, R44). -/

namespace Sys2Proof.Machine

/-! ### The reset table -/

theorem exec_create_of_absent {s : State} (h : s.life = .absent) : exec .create s =
    .next ((s.setLife (.live (resetProcedure s.params s.chips (poweredOn s.chips)))).setResult .nothing) := by
  simp only [exec, execCreate, h, commit]

theorem memRead_prg_of_none (p : Params) {m : Ncore} {a : Addr} (hc : m.cart = none) (hr : regionOf a = .prg) :
    memRead p m a = p.openBus := by
  simp only [memRead, hr, readPrg, hc]

section
variable (p : Params) {n : Nat} (k : Collaborators n) (m : Ncore)

/-- The CPU's state after the reset procedure is its reset state with the vector as `pc`, read through the mapper of the
machine that the procedure leaves (R242 step 5). -/
theorem resetProcedure_cpu : (resetProcedure p k m).cpu = (k.cpu.reset m.cpu).setPc
    (memRead p (resetProcedure p k m) 0xFFFD#16 ++ memRead p (resetProcedure p k m) 0xFFFC#16) := rfl

theorem resetProcedure_cpu_of_none (hc : m.cart = none) :
    (resetProcedure p k m).cpu = (k.cpu.reset m.cpu).setPc (p.openBus ++ p.openBus) := by
  have hcart : (resetProcedure p k m).cart = none := by rw [resetProcedure_cart, hc, Option.map_none]
  rw [resetProcedure_cpu, memRead_prg_of_none p hcart (by decide), memRead_prg_of_none p hcart (by decide)]

end

/-- Settles O15: the reset procedure from power-on, whose vector read finds no cartridge. -/
theorem createGivesFreshMachine : Obligations.CreateGivesFreshMachine := by
  unfold Obligations.CreateGivesFreshMachine
  intro s h
  exact ⟨_, exec_create_of_absent h, fun _ => rfl, fun _ => rfl, fun _ => rfl, rfl, rfl, rfl, rfl, rfl, rfl,
    resetProcedure_cpu_of_none s.params s.chips (poweredOn s.chips) rfl, rfl, rfl⟩

/-- Settles O16: the reset procedure, field by field. -/
theorem resetReinitialises : Obligations.ResetReinitialises := by
  unfold Obligations.ResetReinitialises
  intro s m hlive
  exact ⟨_, exec_reset_of_live hlive, fun _ => rfl, fun _ => rfl, fun _ => rfl,
    resetProcedure_cart s.params s.chips m, rfl, rfl, rfl, rfl, rfl, rfl, rfl, rfl⟩

/-- Settles O17: the last step of the reset procedure puts the vector in as `pc`, and the banks were cleared before. -/
theorem resetEntersAtResetVector : Obligations.ResetEntersAtResetVector := by
  unfold Obligations.ResetEntersAtResetVector
  intro s m hlive
  refine ⟨_, exec_reset_of_live hlive, rfl, resetProcedure_cpu s.params s.chips m, fun _ => rfl, fun c hc => ?_, rfl, rfl⟩
  obtain ⟨c₀, -, rfl⟩ := Option.map_eq_some_iff.mp (resetProcedure_cart s.params s.chips m ▸ hc)
  exact ⟨rfl, rfl⟩

/-! ### `INSPECT` and the domain of life -/

/-- Settles O25: the record of `snapshot`. -/
theorem inspectAnswersSnapshot : Obligations.InspectAnswersSnapshot := by
  unfold Obligations.InspectAnswersSnapshot
  exact fun s m hlive => onLive_live hlive _

theorem onLive_refused {s : State} (h : s.life = .absent ∨ s.life = .dead) (f : Ncore → Out) :
    onLive s f = .refused .notLive := by
  rcases h with h | h <;> simp only [onLive, h]

theorem exec_refused_notLive {i : Instr} {s : State} (hi : i ≠ .create) (h : s.life = .absent ∨ s.life = .dead) :
    exec i s = .refused .notLive := by
  cases i using instr_kinds with
  | busRead r a => exact (exec_readOp r a s).trans (onLive_refused h _)
  | busWrite r a d => exact (exec_writeOp r a d s).trans (onLive_refused h _)
  | create => exact absurd rfl hi
  | chrRd v => exact onLive_refused h _
  | chrWr v d => exact onLive_refused h _
  | reset => exact onLive_refused h _
  | load img ok => exact onLive_refused h _
  | tick => exact onLive_refused h _
  | inspect => exact onLive_refused h _
  | readmem a => exact onLive_refused h _
  | writemem a d => exact onLive_refused h _
  | destroy => exact onLive_refused h _

theorem exec_create_refused {s : State} (h : (∃ m, s.life = .live m) ∨ s.life = .dead) :
    exec .create s = .refused .notAbsent := by
  rcases h with ⟨m, h⟩ | h <;> simp only [exec, execCreate, h]

/-- Settles O30: the two domains of life. -/
theorem outsideLifeRefused : Obligations.OutsideLifeRefused := by
  unfold Obligations.OutsideLifeRefused
  exact ⟨fun i s => exec_refused_notLive, fun s => exec_create_refused⟩

/-- Settles O26: a dead machine is outside the domain of every operation. -/
theorem destroyEndsMachine : Obligations.DestroyEndsMachine := by
  unfold Obligations.DestroyEndsMachine
  refine fun s m hlive => ⟨onLive_live hlive _, fun i => ?_⟩
  split_ifs with hi
  · rw [hi]
    exact exec_create_refused (.inr rfl)
  · exact exec_refused_notLive hi (.inr rfl)

/-- An operation other than `CREATE` and `DESTROY` that answers next leaves a live machine live. -/
theorem exec_next_live {i : Instr} {s t : State} (h : exec i s = .next t) (hcreate : i ≠ .create)
    (hdestroy : i ≠ .destroy) : ∃ m m', s.life = .live m ∧ t.life = .live m' := by
  rcases exec_cases h with ⟨m, r, hm, -, -, -, rfl⟩ | ⟨m, a, d, hm, -, rfl⟩ | ⟨m, v, d, hm, -, rfl⟩ | ⟨m, hm, -, rfl⟩ |
    ⟨m, img, ok, c, hm, -, -, rfl⟩ | ⟨m, hm, -, rfl⟩ | ⟨-, hi, -⟩ | ⟨-, -, hi, -⟩
  · exact ⟨m, m, hm, hm⟩
  · exact ⟨m, _, hm, rfl⟩
  · exact ⟨m, _, hm, rfl⟩
  · exact ⟨m, _, hm, rfl⟩
  · exact ⟨m, _, hm, rfl⟩
  · exact ⟨m, _, hm, rfl⟩
  · exact absurd hi hcreate
  · exact absurd hi hdestroy

/-- Settles O55: `CREATE` and `DESTROY` by their own arms, every other operation by what an operation can have done. -/
theorem lifeMovesOnlyByCreateDestroy : Obligations.LifeMovesOnlyByCreateDestroy := by
  unfold Obligations.LifeMovesOnlyByCreateDestroy
  refine fun i s t h => ⟨?create, ?destroy, fun hcreate hdestroy => ?other, exec_keeps h⟩
  case create =>
    rintro rfl
    obtain ⟨habsent, rfl⟩ := exec_create_next h
    exact ⟨habsent, _, rfl⟩
  case destroy =>
    rintro rfl
    obtain ⟨m, hlive, h⟩ := onLive_next h
    cases h
    exact ⟨⟨m, hlive⟩, rfl⟩
  case other =>
    obtain ⟨m, m', hm, hm'⟩ := exec_next_live h hcreate hdestroy
    exact ⟨⟨m, hm⟩, m', hm'⟩

/-! ### From a live machine to a live machine -/

/-- What an operation has done to a machine that it found live and left live. -/
theorem exec_live_cases {i : Instr} {s t : State} {m m' : Ncore} (hlive : s.life = .live m) (h : exec i s = .next t)
    (hlive' : t.life = .live m') :
    m' = m ∨ (∃ a d, (i = writeOp (regionOf a) a d ∨ i = .writemem a d) ∧ m' = memWrite s.params m a d) ∨
    (∃ v d, m' = chrWrite s.params m v d) ∨ (i = .reset ∧ m' = resetProcedure s.params s.chips m) ∨
    (∃ img ok, i = .load img ok) ∨ (i = .tick ∧ m' = tick s.params s.chips m) := by
  have same : ∀ {m₀ : Ncore}, s.life = .live m₀ → m₀ = m := fun h₀ => Life.live.inj (h₀.symm.trans hlive)
  rcases exec_cases h with ⟨m₀, r, h₀, -, -, -, rfl⟩ | ⟨m₀, a, d, h₀, hi, rfl⟩ | ⟨m₀, v, d, h₀, -, rfl⟩ |
    ⟨m₀, h₀, hi, rfl⟩ | ⟨m₀, img, ok, c, -, hi, -, -⟩ | ⟨m₀, h₀, hi, rfl⟩ | ⟨h₀, -, -⟩ | ⟨m₀, -, -, rfl⟩
  · exact .inl (same hlive')
  · obtain rfl := same h₀
    exact .inr (.inl ⟨a, d, hi, (Life.live.inj hlive').symm⟩)
  · obtain rfl := same h₀
    exact .inr (.inr (.inl ⟨v, d, (Life.live.inj hlive').symm⟩))
  · obtain rfl := same h₀
    exact .inr (.inr (.inr (.inl ⟨hi, (Life.live.inj hlive').symm⟩)))
  · exact .inr (.inr (.inr (.inr (.inl ⟨img, ok, hi⟩))))
  · obtain rfl := same h₀
    exact .inr (.inr (.inr (.inr (.inr ⟨hi, (Life.live.inj hlive').symm⟩))))
  · exact absurd (h₀.symm.trans hlive) nofun
  · exact absurd hlive' nofun

theorem resetProcedure_fixedParts (p : Params) {n : Nat} (k : Collaborators n) (m : Ncore) :
    fixedParts (resetProcedure p k m) = fixedParts m := by
  rw [fixedParts, resetProcedure_cart, Option.map_map]
  rfl

/-- Settles O56: each of the things an operation can do but a `LOAD` keeps what a `LOAD` fixed. -/
theorem romAndHeaderOnlyFromLoad : Obligations.RomAndHeaderOnlyFromLoad := by
  unfold Obligations.RomAndHeaderOnlyFromLoad
  intro i s t m m' hlive h hlive' hload
  rcases exec_live_cases hlive h hlive' with rfl | ⟨a, d, -, rfl⟩ | ⟨v, d, rfl⟩ | ⟨-, rfl⟩ | ⟨img, ok, hi⟩ | ⟨-, rfl⟩
  · rfl
  · exact memWrite_fixedPart s.params m a d
  · exact chrWrite_fixedPart s.params m v d
  · exact resetProcedure_fixedParts s.params s.chips m
  · exact absurd hi (hload img ok)
  · exact tick_fixedParts s.params s.chips m

theorem exec_load_steps {img : List Byte} {ok : Bool} {s t : State} {m m' : Ncore} (hlive : s.life = .live m)
    (h : exec (.load img ok) s = .next t) (hlive' : t.life = .live m') : steps m' = steps m := by
  obtain ⟨m₀, h₀, ⟨c, -, rfl⟩ | ⟨e, -, rfl⟩⟩ := exec_load_next h
  · rw [← Life.live.inj hlive', ← Life.live.inj (h₀.symm.trans hlive)]
    rfl
  · rw [← Life.live.inj (hlive.symm.trans hlive')]

/-- Settles O57: each of the things an operation can do but a tick and the reset procedure keeps the counters. -/
theorem countersMoveOnlyByTick : Obligations.CountersMoveOnlyByTick := by
  unfold Obligations.CountersMoveOnlyByTick
  intro i s t m m' hlive h hlive' htick hreset
  suffices hsteps : steps m' = steps m by simpa only [steps, Prod.mk.injEq] using hsteps
  rcases exec_live_cases hlive h hlive' with rfl | ⟨a, d, -, rfl⟩ | ⟨v, d, rfl⟩ | ⟨hi, -⟩ | ⟨img, ok, rfl⟩ | ⟨hi, -⟩
  · rfl
  · exact memWrite_steps s.params m a d
  · obtain ⟨h1, h2, h3, -⟩ := chrWrite_sameOutside s.params m v d
    simp only [steps, h1, h2, h3]
  · exact absurd hi hreset
  · exact exec_load_steps hlive h hlive'
  · exact absurd hi htick

/-! ### The bank registers (spec/41_mapper.md R189) -/

/-- The pair of bank registers of the record, if there is one. -/
def bankPairs (m : Ncore) : Option (Byte × Byte) := m.cart.map Cart.banks

theorem memWrite_of_prg (p : Params) {m : Ncore} {c : Cart} {a : Addr} (hc : m.cart = some c) (hr : regionOf a = .prg)
    (d : Byte) : memWrite p m a d = m.setCart (some (onWrite c a d)) := by
  simp only [memWrite, hr, writePrg, hc]

theorem memWrite_bankPairs (p : Params) {a : Addr} (hr : regionOf a ≠ .prg) (m : Ncore) (d : Byte) :
    bankPairs (memWrite p m a d) = bankPairs m := by
  rcases memWrite_cases p m a d with h | ⟨-, h⟩ | ⟨-, h⟩ | ⟨-, h⟩ | ⟨c, hc, hprg, h⟩ | ⟨c, r, hc, -, -, -, h⟩
  · rw [h]
  · rw [h]; rfl
  · rw [h]; rfl
  · rw [h]; rfl
  · exact absurd hprg hr
  · rw [h, bankPairs, bankPairs, hc]; rfl

/-- A bus write to a program-ROM address, by whichever of the two operations, is the record's `on_write`. -/
theorem exec_prgWrite {i : Instr} {s t : State} {m m' : Ncore} {c : Cart} {a : Addr} {d : Byte}
    (hlive : s.life = .live m) (hc : m.cart = some c) (hi : i = .wrPrg a d ∨ (i = .writemem a d ∧ 0x8000#16 ≤ a))
    (h : exec i s = .next t) (hlive' : t.life = .live m') : 0x8000#16 ≤ a ∧ m'.cart = some (onWrite c a d) := by
  have hstep : 0x8000#16 ≤ a ∧ t = (s.setLife (.live (memWrite s.params m a d))).setResult .nothing := by
    rcases hi with rfl | ⟨rfl, ha⟩
    · obtain ⟨-, -, hr, -⟩ := onRegion_next ((exec_writeOp .prg a d s).symm.trans h)
      have hnext := (exec_writeOp_of_live hlive hr d).symm.trans h
      exact ⟨regionOf_prg.mp hr, (Host.Outcome.next.inj hnext).symm⟩
    · exact ⟨ha, (Host.Outcome.next.inj ((exec_writemem_of_live hlive a d).symm.trans h)).symm⟩
  obtain ⟨ha, rfl⟩ := hstep
  rw [← Life.live.inj hlive', memWrite_of_prg s.params hc (regionOf_prg.mpr ha)]
  exact ⟨ha, rfl⟩

theorem exec_load_banks {img : List Byte} {ok : Bool} {s t : State} {m m' : Ncore} {c c' : Cart}
    (hlive : s.life = .live m) (hc : m.cart = some c) (h : exec (.load img ok) s = .next t) (hlive' : t.life = .live m')
    (hc' : m'.cart = some c') : c'.banks = if t.result = .loadOk then (0#8, 0#8) else c.banks := by
  obtain ⟨m₀, -, ⟨c₀, hparse, rfl⟩ | ⟨e, -, rfl⟩⟩ := exec_load_next h
  · obtain ⟨-, -, -, -, -, v, -, rfl⟩ := parseImage_ok.mp hparse
    rw [← Life.live.inj hlive'] at hc'
    cases hc'
    rfl
  · obtain rfl := Life.live.inj (hlive.symm.trans hlive')
    cases hc.symm.trans hc'
    rfl

/-- Settles O44: a write to a program-ROM address is `on_write`; of the other things an operation can do only the reset
procedure, a `LOAD` and a tick reach the pair. -/
theorem bankRegistersMoveAsStated : Obligations.BankRegistersMoveAsStated := by
  unfold Obligations.BankRegistersMoveAsStated
  intro i s t m m' c c' hlive hc h hlive' hc'
  refine ⟨fun a d hi => ?write, ?reset, ?load, fun hwrPrg hwritemem hreset hload htick => ?other⟩
  case write =>
    obtain ⟨ha, hcart⟩ := exec_prgWrite hlive hc hi h hlive'
    cases hc'.symm.trans hcart
    refine ⟨fun hv => ?_, fun hv => ?_, fun hv => ?_⟩
    · rw [onWrite_of_fixed hv]
    · rw [onWrite_of_prgsw hv ha]; rfl
    · rw [onWrite_of_chrsw hv ha]; rfl
  case reset =>
    rintro rfl
    cases (exec_reset_of_live hlive).symm.trans h
    rw [← Life.live.inj hlive', resetProcedure_cart, hc] at hc'
    cases hc'
    rfl
  case load =>
    rintro img ok rfl
    exact exec_load_banks hlive hc h hlive' hc'
  case other =>
    suffices hpair : bankPairs m' = bankPairs m by
      rw [bankPairs, bankPairs, hc, hc'] at hpair
      exact Option.some.inj hpair
    rcases exec_live_cases hlive h hlive' with rfl | ⟨a, d, hi, rfl⟩ | ⟨v, d, rfl⟩ | ⟨hi, -⟩ | ⟨img, ok, hi⟩ | ⟨hi, -⟩
    · rfl
    · refine memWrite_bankPairs s.params (fun hr => ?_) m d
      rcases hi with hi | hi
      · rw [hr] at hi
        exact hwrPrg a d hi
      · exact absurd (hwritemem a d hi) (BitVec.not_lt.mpr (regionOf_prg.mp hr))
    · exact chrWrite_cart_map s.params m (fun _ _ => rfl) v d
    · exact absurd hi hreset
    · exact absurd hi (hload img ok)
    · exact absurd hi htick

end Sys2Proof.Machine
end

section
/-! The step and the agent in turn (spec/30_encoding.md R105; spec/60_exceptions.md R298, R303; log 6, log 9, log 11, log 12,
log 14). -/

namespace Sys2Proof.Machine

/-- The ports the agent in turn holds (R105). -/
theorem mayIssue_iff {a : Agent} {port : Port} : mayIssue a port = true ↔
    (port = .host ∧ a = .host) ∨ (port = .bus ∧ (a = .cpu ∨ a = .block)) ∨ (port = .chr ∧ a = .ppu) := by
  cases port <;> simp [mayIssue]

theorem mayIssue_issuer (port : Port) : mayIssue (issuer port) port = true := by
  cases port <;> rfl

section
variable {s : State} {q : Request} {rest : List Request} (hq : s.requests = q :: rest)
include hq

theorem step_of_decode {i : Instr} (hm : mayIssue s.turn q.port = true) (hd : decode q.port q.bytes = .ok i) :
    step s = exec i (s.setRequests rest) := by
  simp only [step, hq, fetch_cons, hm, if_true, hd]

theorem step_of_malformed {e : DecodeError} (hm : mayIssue s.turn q.port = true) (hd : decode q.port q.bytes = .error e) :
    step s = .refused (.malformedRequest e) := by
  simp only [step, hq, fetch_cons, hm, if_true, hd]

theorem step_of_barred (hm : mayIssue s.turn q.port = false) : step s = .refused (.notItsTurn q.port) := by
  simp only [step, hq, fetch_cons, hm, Bool.false_eq_true, if_false]

end

theorem step_of_idle {s : State} (hq : s.requests = []) : step s = .next s := by
  simp only [step, hq, fetch]

/-- A table word is the first request, in the turn of the agent that issues its port's words. -/
theorem step_withFetchWord {s : State} {nbits w : Nat} {i : Instr} (h : decodeTableWord nbits w = some i) :
    step (s.withFetchWord nbits w) = exec i (s.setTurn (issuer i.port)) := by
  unfold decodeTableWord at h
  split at h
  next j hd =>
    obtain rfl := Option.some.inj h
    rw [decode_port hd]
    exact step_of_decode (s := s.withFetchWord nbits w) rfl (mayIssue_issuer _) hd
  next => cases h

/-- Settles O32: the request at hand is decoded and run; a table word is put where it is at hand. -/
theorem stepRunsDecodedRequest : Obligations.StepRunsDecodedRequest := by
  unfold Obligations.StepRunsDecodedRequest
  refine ⟨fun s q rest i hq hm hd => step_of_decode hq (mayIssue_iff.mpr hm) hd, fun s nbits w i h => ?_⟩
  rw [step_withFetchWord h]
  exact ⟨fun hp => by rw [hp]; rfl, fun hp => by rw [hp]; rfl, fun hp => by rw [hp]; rfl⟩

/-- Settles O33: the empty queue, and the decoder's rejection. -/
theorem stepIdlesOrNamesMalformed : Obligations.StepIdlesOrNamesMalformed := by
  unfold Obligations.StepIdlesOrNamesMalformed
  exact ⟨fun s hq => step_of_idle hq, fun s q rest e hq hm hd => step_of_malformed hq (mayIssue_iff.mpr hm) hd⟩

/-- Settles O60: a step that answers next found its request's port among those of the agent in turn. -/
theorem wordsIssuedOnlyInTurn : Obligations.WordsIssuedOnlyInTurn := by
  unfold Obligations.WordsIssuedOnlyInTurn
  refine ⟨fun s t q rest hq h => ?runs, fun s q rest hq hbarred => ?barred⟩
  case runs =>
    rcases step_cases h with ⟨hnil, -⟩ | ⟨q', rest', i, hq', hm, hd, hexec⟩
    · exact absurd (hq.symm.trans hnil) nofun
    · obtain ⟨rfl, rfl⟩ := List.cons.inj (hq.symm.trans hq')
      have hport := decode_port hd
      obtain ⟨-, hturn, hrequests⟩ := exec_keeps hexec
      refine ⟨i, hd, hport, hexec, hturn, hrequests, ?_⟩
      rw [hport]
      rcases mayIssue_iff.mp hm with ⟨hp, ht⟩ | ⟨hp, ht | ht⟩ | ⟨hp, ht⟩ <;> simp [hp, ht]
  case barred =>
    refine step_of_barred hq (Bool.eq_false_iff.mpr fun hm => ?_)
    rcases mayIssue_iff.mp hm with ⟨hp, ht⟩ | ⟨hp, ht⟩ | ⟨hp, ht⟩ <;> simp_all

end Sys2Proof.Machine
end

section
/-! `LOAD` (spec/42_loader.md R210 to R224): the first check that fails, the record installed, the bits and bytes ignored. -/

namespace Sys2Proof.Machine

/-! ### The first check that fails -/

section
variable {p : Params} {s : List Byte} {ok : Bool}

theorem parseImage_badMagic (h : s.length < 4 ∨ s.take 4 ≠ p.magic.toList) :
    parseImage p s ok = .error (.badMagic p.magic.toList (s.take 4)) := if_pos h

variable (hmagic : ¬(s.length < 4 ∨ s.take 4 ≠ p.magic.toList))
include hmagic

theorem parseImage_shortHeader (h : s.length < 16) : parseImage p s ok = .error (.truncatedImage 16 s.length) := by
  rw [parseImage, if_neg hmagic, if_pos h]

variable (hheader : ¬s.length < 16)
include hheader

theorem parseImage_outOfMemory : parseImage p s false = .error .outOfMemory := by
  rw [parseImage, if_neg hmagic, if_neg hheader, if_pos rfl]

theorem parseImage_shortRom (h : s.length - 16 < imageRomSize s) :
    parseImage p s true = .error (.truncatedImage (imageRomSize s) (s.length - 16)) := by
  rw [parseImage, if_neg hmagic, if_neg hheader, if_neg Bool.noConfusion, if_pos h]

variable (hrom : ¬s.length - 16 < imageRomSize s)
include hrom

theorem parseImage_shortVrom (h : s.length - 16 - imageRomSize s < imageVromSize s) : parseImage p s true =
    .error (.truncatedImage (imageVromSize s) (s.length - 16 - imageRomSize s)) := by
  rw [parseImage, if_neg hmagic, if_neg hheader, if_neg Bool.noConfusion, if_neg hrom, if_pos h]

theorem parseImage_unsupported (hvrom : ¬s.length - 16 - imageRomSize s < imageVromSize s)
    (h : mapperConstruct p (imageMapperId s) = none) :
    parseImage p s true = .error (.unsupportedMapper (imageMapperId s)) := by
  rw [parseImage, if_neg hmagic, if_neg hheader, if_neg Bool.noConfusion, if_neg hrom, if_neg hvrom, h]

end

/-- Settles O19: the parser's branches in their order, each an error that `LOAD` returns. -/
theorem loadReportsFirstFailedCheck : Obligations.LoadReportsFirstFailedCheck := by
  unfold Obligations.LoadReportsFirstFailedCheck
  intro s m img ok hlive
  refine ⟨fun h => exec_load_of_parse_error hlive (parseImage_badMagic h), fun hlen htake => ?_⟩
  have hmagic : ¬(img.length < 4 ∨ img.take 4 ≠ s.params.magic.toList) :=
    not_or.mpr ⟨Nat.not_lt.mpr hlen, not_not_intro htake⟩
  refine ⟨fun h => exec_load_of_parse_error hlive (parseImage_shortHeader hmagic h), fun hheader hok => ?alloc,
    fun hheader hok => ⟨fun hrom => ?rom, fun hrom hvrom => ?vrom, fun hsize hmapper => ?mapper⟩⟩
  case alloc =>
    subst hok
    exact exec_load_of_parse_error hlive (parseImage_outOfMemory hmagic (Nat.not_lt.mpr hheader))
  case rom =>
    subst hok
    exact exec_load_of_parse_error hlive (parseImage_shortRom hmagic (Nat.not_lt.mpr hheader) hrom)
  case vrom =>
    subst hok
    exact exec_load_of_parse_error hlive
      (parseImage_shortVrom hmagic (Nat.not_lt.mpr hheader) (Nat.not_lt.mpr hrom) hvrom)
  case mapper =>
    subst hok
    have hrom : ¬img.length - 16 < imageRomSize img := by
      unfold imageRomSize imageByte
      omega
    have hvrom : ¬img.length - 16 - imageRomSize img < imageVromSize img := by
      unfold imageRomSize imageVromSize imageByte
      omega
    exact exec_load_of_parse_error hlive (parseImage_unsupported hmagic (Nat.not_lt.mpr hheader) hrom hvrom hmapper)

/-! ### The record installed -/

/-- Save RAM is present exactly where `s[8]` is not 0 (R115, R222). -/
theorem imageCart_prgRam (p : Params) (s : List Byte) (v : Variant) :
    (imageCart p s v).prgRam = if imageByte s 8 = 0#8 then none else some [] := by
  by_cases h : imageByte s 8 = 0#8 <;> simp [imageCart, imageHasPrgRam, h]

/-- Settles O20: the image passes every check, and the record is the parser's. -/
theorem loadInstallsRecord : Obligations.LoadInstallsRecord := by
  unfold Obligations.LoadInstallsRecord
  intro s m img v hlive htake hlen hv
  have hparse : parseImage s.params img true = .ok (imageCart s.params img v) :=
    parseImage_ok.mpr ⟨by omega, htake, by omega, rfl, hlen, v, hv, rfl⟩
  have hram : (if img.getD 8 0#8 = 0#8 then none else some []) = (imageCart s.params img v).prgRam :=
    (imageCart_prgRam s.params img v).symm
  rw [exec_load_of_parse_ok hlive hparse, hram]
  rfl

/-! ### What the loader ignores (R117, R119, D16) -/

/-- The record is a function of six bytes of the header, of two of them the high nibbles only, and of the two payloads. -/
theorem imageCart_congr (p : Params) {s s' : List Byte} (h4 : imageByte s' 4 = imageByte s 4)
    (h5 : imageByte s' 5 = imageByte s 5) (h8 : imageByte s' 8 = imageByte s 8) (h9 : imageByte s' 9 = imageByte s 9)
    (hid : imageMapperId s' = imageMapperId s) (hrom : imageRom s' = imageRom s) (hvrom : imageVrom s' = imageVrom s)
    (v : Variant) : imageCart p s' v = imageCart p s v := by
  unfold imageCart imageHeader imageFormat imageHasPrgRam
  rw [h4, h5, h8, h9, hid, hrom, hvrom]

theorem imageByte_congr {s s' : List Byte} {k : Nat} (h : s'[k]? = s[k]?) : imageByte s' k = imageByte s k := by
  simp only [imageByte, List.getD_eq_getElem?_getD, h]

/-- The parser sees the length, the magic, the mapper id, five bytes and what lies behind the header. -/
theorem parseImage_congr (p : Params) {s s' : List Byte} (hlen : s'.length = s.length) (htake : s'.take 4 = s.take 4)
    (hbyte : ∀ k, k ≠ 6 → k ≠ 7 → (k < 10 ∨ 16 ≤ k) → s'[k]? = s[k]?) (hid : imageMapperId s' = imageMapperId s)
    (ok : Bool) : parseImage p s' ok = parseImage p s ok := by
  have h4 : imageByte s' 4 = imageByte s 4 := imageByte_congr (hbyte 4 (by decide) (by decide) (by decide))
  have h5 : imageByte s' 5 = imageByte s 5 := imageByte_congr (hbyte 5 (by decide) (by decide) (by decide))
  have h8 : imageByte s' 8 = imageByte s 8 := imageByte_congr (hbyte 8 (by decide) (by decide) (by decide))
  have h9 : imageByte s' 9 = imageByte s 9 := imageByte_congr (hbyte 9 (by decide) (by decide) (by decide))
  have hdrop : ∀ n, s'.drop (16 + n) = s.drop (16 + n) := fun n => List.ext_getElem? fun i => by
    rw [List.getElem?_drop, List.getElem?_drop, hbyte _ (by omega) (by omega) (by omega)]
  have hromSize : imageRomSize s' = imageRomSize s := by rw [imageRomSize, h4, imageRomSize]
  have hvromSize : imageVromSize s' = imageVromSize s := by rw [imageVromSize, h5, imageVromSize]
  have hrom : imageRom s' = imageRom s := by rw [imageRom, hdrop 0, hromSize, imageRom]
  have hvrom : imageVrom s' = imageVrom s := by rw [imageVrom, hromSize, hdrop, hvromSize, imageVrom]
  simp only [parseImage, hlen, htake, hromSize, hvromSize, hid, imageCart_congr p h4 h5 h8 h9 hid hrom hvrom]

theorem imageByte_append {s : List Byte} {k : Nat} (h : k < s.length) (extra : List Byte) :
    imageByte (s ++ extra) k = imageByte s k :=
  List.getD_append _ _ _ _ h

theorem take_drop_append {s : List Byte} {k j : Nat} (h : k + j ≤ s.length) (extra : List Byte) :
    ((s ++ extra).drop k).take j = (s.drop k).take j := by
  rw [List.drop_append_of_le_length (by omega), List.take_append_of_le_length (by rw [List.length_drop]; omega)]

/-- Bytes after the payload of an accepted image are not looked at. -/
theorem parseImage_append {p : Params} {s : List Byte} {ok : Bool} {c : Cart} (h : parseImage p s ok = .ok c)
    (extra : List Byte) : parseImage p (s ++ extra) ok = .ok c := by
  obtain ⟨h4, htake, h16, hok, hlen, v, hv, rfl⟩ := parseImage_ok.mp h
  have hbyte : ∀ k, k < 16 → imageByte (s ++ extra) k = imageByte s k :=
    fun k hk => imageByte_append (by omega) extra
  have hromSize : imageRomSize (s ++ extra) = imageRomSize s := by rw [imageRomSize, hbyte 4 (by decide), imageRomSize]
  have hvromSize : imageVromSize (s ++ extra) = imageVromSize s := by
    rw [imageVromSize, hbyte 5 (by decide), imageVromSize]
  have hid : imageMapperId (s ++ extra) = imageMapperId s := by
    rw [imageMapperId, hbyte 7 (by decide), hbyte 6 (by decide), imageMapperId]
  have hrom : imageRom (s ++ extra) = imageRom s := by
    rw [imageRom, hromSize, take_drop_append (by omega), imageRom]
  have hvrom : imageVrom (s ++ extra) = imageVrom s := by
    rw [imageVrom, hromSize, hvromSize, take_drop_append hlen, imageVrom]
  have hcart := imageCart_congr p (hbyte 4 (by decide)) (hbyte 5 (by decide)) (hbyte 8 (by decide))
    (hbyte 9 (by decide)) hid hrom hvrom v
  have hlength : (s ++ extra).length = s.length + extra.length := List.length_append
  exact parseImage_ok.mpr ⟨by omega, (List.take_append_of_le_length h4).trans htake, by omega, hok, by omega, v, hid ▸ hv,
    hcart.symm⟩

theorem exec_load_congr {s : State} {img img' : List Byte} {ok : Bool}
    (h : parseImage s.params img' ok = parseImage s.params img ok) : exec (.load img' ok) s = exec (.load img ok) s := by
  simp only [exec, execLoad, h]

/-- Settles O22: the parser's verdict is the same on both images. -/
theorem loadIgnoresReservedBits : Obligations.LoadIgnoresReservedBits := by
  unfold Obligations.LoadIgnoresReservedBits
  refine fun s m img ok hlive => ⟨fun img' hlen hbyte h6 h7 => exec_load_congr ?reserved, fun t extra h hok => ?trailing⟩
  case reserved =>
    refine parseImage_congr s.params hlen (List.ext_getElem? fun i => ?_) hbyte ?_ ok
    · by_cases hi : i < 4
      · rw [List.getElem?_take_of_lt hi, List.getElem?_take_of_lt hi, hbyte i (by omega) (by omega) (by omega)]
      · rw [List.getElem?_take_eq_none (by omega), List.getElem?_take_eq_none (by omega)]
    · unfold imageMapperId imageByte
      rw [h6, h7]
  case trailing =>
    obtain ⟨m₀, -, ⟨c, hparse, -⟩ | ⟨e, -, rfl⟩⟩ := exec_load_next h
    · exact exec_load_congr ((parseImage_append hparse extra).trans hparse.symm)
    · cases hok

end Sys2Proof.Machine
end
